-- ==== Sys2Proof/Word.lean ====
section
/-! DEFINITION. The widths of the block's values (00_scope.md R7, R8; 10_state.md R20). All values are unsigned. -/
namespace Sys2Proof

/-- A memory cell, a packed byte, or one byte of program text (00_scope.md R7 `CELL_BITS`, R11 `Char`). -/
abbrev Byte := BitVec 8

/-- An instruction code (00_scope.md R7 `CODE_BITS`). -/
abbrev Code := BitVec 2

/-- An address of the one address space, 0..255 (20_memory.md R40), which is also what `dp` holds (10_state.md R24).
Address 256 is not memory (R41) and is no value of this type. -/
abbrev Addr := BitVec 8

/-- The low part of a position, `ipl` or `rpl`: 9 bits, range 0..256 (10_state.md R25, R28; D2). -/
abbrev PosLow := BitVec 9

/-- The high part of a position, `iph` or `rph`: which of the four slots of a byte (10_state.md R26, R28). -/
abbrev Slot := BitVec 2

/-- An instruction position `(l, h)` (00_scope.md R10). -/
structure Pos where
  l : PosLow
  h : Slot
  deriving DecidableEq, Repr

end Sys2Proof
end

