-- ==== Sys2Proof/Config.lean ====
section
/-! DEFINITION. The implementation parameters of 00_scope.md R7: the sizes, and the three parameters the model takes
as arguments. The block has no value that the spec leaves free, so this file declares no opaque constant. -/
namespace Sys2Proof

/-- `MEM_SIZE`: memory cells (00_scope.md R7). -/
abbrev memSize : Nat := 256

/-- `SLOTS`: instructions in a packed byte (00_scope.md R7). -/
abbrev slots : Nat := 4

/-- `MAX_PROGRAM` = `MEM_SIZE * SLOTS` symbolic instructions (00_scope.md R7). -/
abbrev maxProgram : Nat := 1024

/-- `DP_OVERFLOW`, the policy for `ShiftRight` at `dp = 255` (41_execute.md R110; D3). -/
inductive DpOverflow where
  | fault
  | wrap
  deriving DecidableEq, Repr

/-- `TRACE_ENABLE` and `TRACE_BLOCKING` together. `TRACE_BLOCKING` requires `TRACE_ENABLE` (60_exceptions.md R147),
so there are three legal pairs: `off` (false, false), `observe` (true, false), `blocking` (true, true). -/
inductive TraceMode where
  | off
  | observe
  | blocking
  deriving DecidableEq, Repr

/-- The configuration, fixed for a whole run (70_reset_and_hazards.md R162). -/
structure Config where
  dpOverflow : DpOverflow
  trace : TraceMode
  deriving DecidableEq, Repr

/-- The spec's values: `DP_OVERFLOW = FAULT`, tracing off (00_scope.md R7; D3, D11). -/
def Config.standard : Config := { dpOverflow := .fault, trace := .off }

end Sys2Proof
end

