-- ==== Sys2Proof/Syntax.lean ====
section
/-! DEFINITION. The instruction set: the four rows of spec/opcode_table.json (00_scope.md R11; 30_encoding.md R60,
R67). No instruction has an operand field (30_encoding.md R61, R64). -/
namespace Sys2Proof

/-- `Instr`, the four-valued type of 00_scope.md R11. -/
inductive Instr where
  /-- `[`, code `00` (41_execute.md R107). -/
  | loopOpen
  /-- `]`, code `01` (41_execute.md R108). -/
  | loopClose
  /-- `+`, code `10` (41_execute.md R109). -/
  | increment
  /-- `>`, code `11` (41_execute.md R110). -/
  | shiftRight
  deriving DecidableEq, Repr

end Sys2Proof
end

