-- ==== Sys2Proof/WellFormed.lean ====
section
/-! DEFINITION. What is well formed: an instruction, a group given to `encode_group`, a program given to `pack`. -/
namespace Sys2Proof

/-- Every instruction is well formed: it has no field that could be out of range (30_encoding.md R61, R64, R65). -/
def Instr.wf (i : Instr) : Bool :=
  match i with
  | .loopOpen => true
  | .loopClose => true
  | .increment => true
  | .shiftRight => true

/-- A group is "up to 4" instructions (40_codec.md R82). -/
def groupWf (s : List Instr) : Bool := s.all Instr.wf && decide (s.length ≤ slots)

/-- A program that fits the memory has at most 1024 instructions (40_codec.md R86, R87). -/
def programWf (s : List Instr) : Bool := s.all Instr.wf && decide (s.length ≤ maxProgram)

end Sys2Proof
end

