-- ==== Sys2Proof/Decode.lean ====
section
/-! DEFINITION. The Instruction Codec (40_codec.md) and, over it, the decoder and encoder of one instruction word. -/
namespace Sys2Proof

namespace Codec

/-- What a codec operation refuses, by name. -/
inductive Error where
  /-- `instruction_of` of a byte outside the alphabet (40_codec.md R84). -/
  | invalidInstructionChar (ch : Byte)
  /-- `encode_group` of more than four instructions: not a valid input (40_codec.md R82; D8). -/
  | groupTooLong (n : Nat)
  deriving DecidableEq, Repr

/-- A load error and what it records (60_exceptions.md R131, R132; D7). -/
inductive LoadError where
  /-- The offending byte and its 0-based index in the text. -/
  | invalidInstructionChar (ch : Byte) (index : Nat)
  /-- The symbolic-instruction count. -/
  | programTooLarge (n : Nat)
  deriving DecidableEq, Repr

/-- The 256-byte memory image that `pack` makes (40_codec.md R86). -/
abbrev Image := Vector Byte memSize

/-! ### Codes (40_codec.md R80; 30_encoding.md R60) -/

/-- `instr(c)`: total, since all four codes are defined. -/
def instr (c : Code) : Instr :=
  if c = 0b00#2 then .loopOpen
  else if c = 0b01#2 then .loopClose
  else if c = 0b10#2 then .increment
  else .shiftRight

/-- `code(i)`, the inverse of `instr`. -/
def code (i : Instr) : Code :=
  match i with
  | .loopOpen => 0b00#2
  | .loopClose => 0b01#2
  | .increment => 0b10#2
  | .shiftRight => 0b11#2

/-! ### Packed bytes (30_encoding.md R62; 40_codec.md R81, R82) -/

/-- `decode_byte(b)`: slot 0 is bits 7-6, slot 1 bits 5-4, slot 2 bits 3-2, slot 3 bits 1-0. -/
def decodeByte (b : Byte) : Vector Instr slots :=
  #v[instr (b.extractLsb' 6 2), instr (b.extractLsb' 4 2), instr (b.extractLsb' 2 2), instr (b.extractLsb' 0 2)]

/-- The instruction in slot `h` of byte `b`: `decode_byte(b)[h]` (41_execute.md R103, R104). -/
def slotInstr (b : Byte) (h : Slot) : Instr := (decodeByte b)[h.toNat]'h.isLt

/-- A code shifted into slot `k`: `zext_8(c) << (6 - 2k)` (40_codec.md R82). -/
def slotBits (c : Code) (k : Nat) : Byte := c.setWidth 8 <<< (6 - 2 * k)

/-- The loop of `encode_group`, from slot `k` on: each code shifted into its slot, the results ORed, and slots with no
instruction left `00` (40_codec.md R82). -/
def orSlots : Nat → List Instr → Byte
  | _, [] => 0#8
  | k, i :: s => slotBits (code i) k ||| orSlots (k + 1) s

/-- `encode_group(s)`: a sequence longer than four is no valid input and is refused (40_codec.md R82; D8). -/
def encodeGroup (s : List Instr) : Except Error Byte :=
  if s.length ≤ slots then .ok (orSlots 0 s) else .error (.groupTooLong s.length)

/-- Byte `b` with slot `h` replaced by code `c` and the other three slots kept (30_encoding.md R62). -/
def placeSlot (b : Byte) (h : Slot) (c : Code) : Byte :=
  (b &&& ~~~ slotBits 0b11#2 h.toNat) ||| slotBits c h.toNat

/-! ### Characters (40_codec.md R83, R84; 30_encoding.md R69: ASCII, PRESUMED through decision D6, log 9) -/

/-- `char_of(i)`: `[` is 0x5B, `]` is 0x5D, `+` is 0x2B, `>` is 0x3E. -/
def charOf (i : Instr) : Byte :=
  match i with
  | .loopOpen => 0x5B#8
  | .loopClose => 0x5D#8
  | .increment => 0x2B#8
  | .shiftRight => 0x3E#8

/-- `instruction_of(ch)`: exact byte values, every other byte is `InvalidInstructionChar` (40_codec.md R84). -/
def instructionOf (ch : Byte) : Except Error Instr :=
  if ch = 0x5B#8 then .ok .loopOpen
  else if ch = 0x5D#8 then .ok .loopClose
  else if ch = 0x2B#8 then .ok .increment
  else if ch = 0x3E#8 then .ok .shiftRight
  else .error (.invalidInstructionChar ch)

/-! ### Programs (40_codec.md R85, R86) -/

/-- `decode_program` from index `j` on: each character goes through `instruction_of`, in order, and the first invalid
one is reported with its index (40_codec.md R85; 60_exceptions.md R131; D7). -/
def decodeProgramFrom : Nat → List Byte → Except LoadError (List Instr)
  | _, [] => .ok []
  | j, ch :: t =>
    match instructionOf ch with
    | .error _ => .error (.invalidInstructionChar ch j)
    | .ok i =>
      match decodeProgramFrom (j + 1) t with
      | .error e => .error e
      | .ok s => .ok (i :: s)

/-- `decode_program(t)` (40_codec.md R85). -/
def decodeProgram (t : List Byte) : Except LoadError (List Instr) := decodeProgramFrom 0 t

/-- The chunk `s[4i .. min(4i+3, n-1)]` of the packing protocol (40_codec.md R86): at most four instructions, none
past the program's end. -/
def chunk (s : List Instr) (i : Nat) : List Instr := (s.drop (slots * i)).take slots

/-- `pack(s)`: byte `i` is `encode_group` of chunk `i` while the program lasts, then `0x00` (40_codec.md R86). -/
def pack (s : List Instr) : Except LoadError Image :=
  if maxProgram < s.length then .error (.programTooLarge s.length)
  else .ok (Vector.ofFn fun i : Fin memSize => if slots * i.val < s.length then orSlots 0 (chunk s i.val) else 0#8)

/-- All the instructions of an image in position order: what a reader of the image gets (40_codec.md R91). -/
def unpack (img : Image) : List Instr := img.toList.flatMap fun b => (decodeByte b).toList

end Codec

/-! ### One instruction word (30_encoding.md R61, R67) -/

/-- The decoder: an instruction word is 2 bits, and every word is an instruction (30_encoding.md R65). -/
def decode (w : Code) : Instr := Codec.instr w

/-- The encoder: the one word of an instruction (30_encoding.md R60). -/
def encode (i : Instr) : Code := Codec.code i

/-- The instruction the decoder reads from the table's word `w`. A row has 2 bits, numbered 1 and 0 (mask `0b11`), so
they are `w`'s two low bits whatever `nbits` says (log 8). The word is laid out as the hardware stores it, in slot 0 of
a byte, and the byte is decoded. -/
def decodeTableWord (_nbits w : Nat) : Option Instr :=
  some (Codec.slotInstr (Codec.placeSlot 0#8 0#2 (BitVec.ofNat 2 w)) 0#2)

end Sys2Proof
end

