-- ==== Sys2Proof/Machine/State.lean ====
section
/-! DEFINITION. The state of the Execution Engine (10_state.md), what ends a step, and the state after reset. -/
namespace Sys2Proof.Machine

/-- The conditions that have a code (60_exceptions.md R130). -/
inductive Condition where
  /-- Load error, code 1 (R131). -/
  | invalidInstructionChar
  /-- Load error, code 2 (R132). -/
  | programTooLarge
  /-- Run-time fault, code 3: `ShiftRight` at `dp = 255` under FAULT (R133). -/
  | dataPointerOutOfRange
  /-- Run-time fault, code 4: the model's own check, unreachable under the rules (R135). -/
  | invariantViolation
  deriving DecidableEq, Repr

/-- `run_state` (10_state.md R30; D18). FAULTED carries its cause and the position of the faulting instruction. -/
inductive RunState where
  | running
  | halted
  | faulted (cause : Condition) (faultIpl : PosLow) (faultIph : Slot)
  deriving DecidableEq, Repr

/-- Memory: (address, byte) pairs, addresses rising, listing no cell that holds what an unlisted address reads as.
`Memory.wf` in Ops.lean states the form. -/
abbrev Memory := List Host.Cell

/-- The engine's state. The first seven fields are 10_state.md R20's state, and `traceWait` is the trace wait of
70_reset_and_hazards.md R161. The last two are the model's own: the configuration and the pending input, which the spec
calls parameters of the model (10_state.md R21; DESIGN CHOICE, log 1 and 2). -/
structure State where
  /-- `mem[0..255]` (R22). -/
  mem : Memory
  /-- `dp`, the data pointer (R24). -/
  dp : Addr
  /-- `ipl`, the instruction pointer's byte address, 0..256 (R25). -/
  ipl : PosLow
  /-- `iph`, the instruction pointer's slot (R26). -/
  iph : Slot
  /-- `rpl`, the return pointer's byte address, 0..256 (R28). -/
  rpl : PosLow
  /-- `rph`, the return pointer's slot (R28). -/
  rph : Slot
  /-- `run_state` (R30). -/
  runState : RunState
  /-- The trace wait: a blocking step waits at phase (4) (60_exceptions.md R147, R148). -/
  traceWait : Bool
  /-- `DP_OVERFLOW`, `TRACE_ENABLE`, `TRACE_BLOCKING` (00_scope.md R7), fixed for a run. -/
  config : Config
  /-- Continue signals the Observer has sent and no step has taken, oldest first (60_exceptions.md R147). -/
  continueIn : List Byte
  deriving DecidableEq, Repr

/-- Where no step is enabled. An instruction's own fault (DataPointerOutOfRange) is not here: the spec says what it
leaves, so it is a next state with `run_state = FAULTED`. -/
inductive Fault where
  /-- Raised by `step` in HALTED: "no step is enabled, and the state is final" (41_execute.md R101). Safe. -/
  | stuckHalted
  /-- Raised by `step` in FAULTED: "no step is enabled, and the state is final" (41_execute.md R101). Safe. -/
  | stuckFaulted
  deriving DecidableEq, Repr

/-- No meaning of this model refuses: all four codes are defined (30_encoding.md R65). -/
inductive Refusal where
  /-- For an arm of `exec` that has no meaning yet; no arm is left so. Safe. -/
  | notModelled (mnemonic : String)
  deriving DecidableEq, Repr

/-- The state after reset (70_reset_and_hazards.md R161), with the image of the empty program, 256 zero bytes (log 3),
and the spec's configuration (log 1). `start` in Loader.lean gives the reset state of any image. -/
def State.reset : State where
  mem := []
  dp := 0#8
  ipl := 0#9
  iph := 0#2
  rpl := 0#9
  rph := 0#2
  runState := .running
  traceWait := false
  config := Config.standard
  continueIn := []

end Sys2Proof.Machine
end

