-- ==== Sys2Proof/Machine/Ops.lean ====
section
/-! DEFINITION. The operations over memory, positions and registers, and taking a fault. -/
namespace Sys2Proof.Machine

/-! ### Memory (20_memory.md) -/

/-- What an address not listed reads as: cells past the program are zero at reset (20_memory.md R47; log 3). -/
def Memory.unlisted : Byte := 0#8

/-- `MemRead(a, 1)` on the list (00_scope.md R9). -/
def Memory.read : Memory → Nat → Byte
  | [], _ => Memory.unlisted
  | (b, w) :: m, a => if a = b then w else Memory.read m a

/-- A cell put in its place among rising addresses. -/
def Memory.insertCell : Memory → Nat → Byte → Memory
  | [], a, v => [(a, v)]
  | (b, w) :: m, a, v => if a < b then (a, v) :: (b, w) :: m else (b, w) :: Memory.insertCell m a v

/-- `MemWrite(a, 1, v)` on the list (00_scope.md R9): the old cell goes, and the new one is listed unless it holds what
an unlisted address reads as. -/
def Memory.write (m : Memory) (a : Nat) (v : Byte) : Memory :=
  let rest := m.filter fun c => c.1 ≠ a
  if v = Memory.unlisted then rest else Memory.insertCell rest a v

/-- The canonical form: addresses strictly rising, all below 256, and no cell holding what an unlisted one reads as. -/
abbrev Memory.wf (m : Memory) : Prop :=
  m.Pairwise (fun c d => c.1 < d.1) ∧ ∀ c ∈ m, c.1 < memSize ∧ c.2 ≠ Memory.unlisted

/-- The memory that holds an image (70_reset_and_hazards.md R163 step 4). -/
def Memory.ofImage (img : Codec.Image) : Memory :=
  (List.finRange memSize).filterMap fun i =>
    if img[i] = Memory.unlisted then none else some (i.val, img[i])

/-- The 256-byte image that a memory holds (70_reset_and_hazards.md R165). -/
def Memory.toImage (m : Memory) : Codec.Image := Vector.ofFn fun i => m.read i.val

/-- `MemRead(a, 1)`. An address is 8 bits, so no access outside 0..255 can be expressed (20_memory.md R41). -/
def State.readByte (s : State) (a : Addr) : Byte := s.mem.read a.toNat

/-- `MemWrite(a, 1, v)`. -/
def State.writeByte (s : State) (a : Addr) (v : Byte) : State := { s with mem := s.mem.write a.toNat v }

/-! ### Positions (00_scope.md R10) -/

/-- The linear index `P(l, h) = 4*l + h`. -/
def posIndex (p : Pos) : Nat := slots * p.l.toNat + p.h.toNat

/-- `succ(l, h)`: the next slot, with carry from slot 3 into the next byte. -/
def posSucc (p : Pos) : Pos := if p.h = 3#2 then ⟨p.l + 1#9, 0#2⟩ else ⟨p.l, p.h + 1#2⟩

/-! ### Registers (00_scope.md R9) -/

/-- The instruction pointer `(ipl, iph)`. -/
def State.ip (s : State) : Pos := ⟨s.ipl, s.iph⟩

/-- The return pointer `(rpl, rph)`. -/
def State.rp (s : State) : Pos := ⟨s.rpl, s.rph⟩

/-- `(ipl, iph) <- p`. -/
def State.setIp (s : State) (p : Pos) : State := { s with ipl := p.l, iph := p.h }

/-- `(rpl, rph) <- p`. -/
def State.setRp (s : State) (p : Pos) : State := { s with rpl := p.l, rph := p.h }

/-- `dp <- v`. -/
def State.setDp (s : State) (v : Addr) : State := { s with dp := v }

/-- The advance (41_execute.md R112), which a taken `LoopClose` skips. -/
def State.advance (s : State) : State := s.setIp (posSucc s.ip)

/-! ### End of a run, and taking a fault -/

/-- The halt check's one write (41_execute.md R102). -/
def State.halt (s : State) : State := { s with runState := .halted }

/-- Taking a fault: `run_state <- FAULTED(cause, ipl, iph)` and nothing else. There is no vector, no mode, no saved
state and no handler (60_exceptions.md R133, R139; D4), and no return from a fault exists (R140). -/
def raiseFault (cause : Condition) (s : State) : State := { s with runState := .faulted cause s.ipl s.iph }

end Sys2Proof.Machine
end

