-- ==== Sys2Proof/Machine/Operands.lean ====
section
/-! DEFINITION. The one addressing mode: operands are implicit, and the only memory operand is `mem[dp]`
(30_encoding.md R64; 20_memory.md R44). -/
namespace Sys2Proof.Machine

/-- The value of `mem[dp]`, read by `LoopClose`, `Increment` and the trace port. -/
def State.dataCell (s : State) : Byte := s.readByte s.dp

/-- `mem[dp] <- v`, written by `Increment` only. -/
def State.setDataCell (s : State) (v : Byte) : State := s.writeByte s.dp v

end Sys2Proof.Machine
end

