-- ==== Sys2Proof/Machine/Flags.lean ====
section
/-! DEFINITION. The block has no flags and no condition codes (10_state.md R31). Its one test, the loop condition, is
evaluated inside the step and never stored. -/
namespace Sys2Proof.Machine

/-- The loop condition `mem[dp] != 0` (41_execute.md R108; 00_scope.md R12). -/
def State.loopCondition (s : State) : Bool := s.dataCell != 0#8

end Sys2Proof.Machine
end

