-- ==== Sys2Proof/Machine/Data.lean ====
section
/-! DEFINITION. The data instructions `Increment` and `ShiftRight`. -/
namespace Sys2Proof.Machine

/-- `Increment` (41_execute.md R109): `mem[dp] <- (mem[dp] + 1) mod 256`, silently; then the advance. -/
def execIncrement (s : State) : Host.Outcome State Fault Refusal :=
  .next (s.setDataCell (s.dataCell + 1#8)).advance

/-- `ShiftRight` (41_execute.md R110): `dp <- dp + 1`; then the advance. At `dp = 255` FAULT raises
DataPointerOutOfRange and writes nothing else (60_exceptions.md R133), WRAP sets `dp` to 0 (D3). -/
def execShiftRight (s : State) : Host.Outcome State Fault Refusal :=
  if s.dp = 255#8 then
    match s.config.dpOverflow with
    | .fault => .next (raiseFault .dataPointerOutOfRange s)
    | .wrap => .next (s.setDp 0#8).advance
  else .next (s.setDp (s.dp + 1#8)).advance

end Sys2Proof.Machine
end

