-- ==== Sys2Proof/Machine/Loop.lean ====
section
/-! DEFINITION. The loop instructions, over the single-slot return pointer (10_state.md R28; 41_execute.md R118). -/
namespace Sys2Proof.Machine

/-- `LoopOpen` (41_execute.md R107): the return pointer is the position right after this instruction; then the advance.
It reads no cell and never skips. -/
def execLoopOpen (s : State) : Host.Outcome State Fault Refusal :=
  .next (s.setRp (posSucc s.ip)).advance

/-- `LoopClose` (41_execute.md R108): while `mem[dp] != 0` it jumps to the return pointer and skips the advance. -/
def execLoopClose (s : State) : Host.Outcome State Fault Refusal :=
  .next (if s.loopCondition then s.setIp s.rp else s.advance)

end Sys2Proof.Machine
end

