-- ==== Sys2Proof/Machine/Dispatch.lean ====
section
/-! DEFINITION. The execute phase dispatches on the current instruction (41_execute.md R106); each arm ends with the
advance of R112, unless it jumped or faulted. -/
namespace Sys2Proof.Machine

def exec (i : Instr) (s : State) : Host.Outcome State Fault Refusal :=
  match i with
  | .loopOpen => Sys2Proof.Machine.execLoopOpen s
  | .loopClose => Sys2Proof.Machine.execLoopClose s
  | .increment => Sys2Proof.Machine.execIncrement s
  | .shiftRight => Sys2Proof.Machine.execShiftRight s

end Sys2Proof.Machine
end

