-- ==== Sys2Proof/Machine/Fetch.lean ====
section
/-! DEFINITION. The phases of a step before execution (41_execute.md R102 to R104; 60_exceptions.md R135, R147). -/
namespace Sys2Proof.Machine

/-- The invariant a step checks before it uses `ipl`: `ipl` stays within 0..256 (60_exceptions.md R135; log 7). -/
def State.ipInRange (s : State) : Bool := decide (s.ipl.toNat ≤ memSize)

/-- The halt check reads only `ipl` (41_execute.md R102). -/
def State.atEnd (s : State) : Bool := s.ipl = 256#9

/-- The byte `mem[ipl]`, from the memory as it stands (41_execute.md R103). A step reads it only with `ipl < 256`,
where dropping `ipl`'s top bit keeps its value. -/
def State.fetchByte (s : State) : Byte := s.readByte (s.ipl.setWidth 8)

/-- The current instruction, `decode_byte(mem[ipl])[iph]` (41_execute.md R103, R104). -/
def State.fetchInstr (s : State) : Instr := Codec.slotInstr s.fetchByte s.iph

/-- Phase (4) as far as state is concerned: tracing without blocking writes nothing (41_execute.md R105), and a blocking
step goes on only by taking one continue signal, whose value is ignored (60_exceptions.md R147). `none`: no signal has
come, and the step must wait. -/
def State.passObserver (s : State) : Option State :=
  match s.config.trace with
  | .off => some s
  | .observe => some s
  | .blocking =>
    match s.continueIn with
    | [] => none
    | _ :: rest => some { s with traceWait := false, continueIn := rest }

/-- Waiting at phase (4): while it waits, no state changes but the trace wait itself (60_exceptions.md R147, R148;
log 5). -/
def State.wait (s : State) : State := { s with traceWait := true }

/-- A machine word placed where the next step fetches: slot `iph` of byte `mem[ipl]`, whose other slots stay (log 8). -/
def State.placeFetchCode (s : State) (c : Code) : State :=
  s.writeByte (s.ipl.setWidth 8) (Codec.placeSlot s.fetchByte s.iph c)

end Sys2Proof.Machine
end

