-- ==== Sys2Proof/Machine/Step.lean ====
section
/-! DEFINITION. One step (41_execute.md R100, R101), in the spec's order: halt check, fetch, observe, execute with
advance. -/
namespace Sys2Proof.Machine

/-- One step. A step is enabled only in RUNNING (R101); otherwise the machine is stuck (log 4). -/
def step (s : State) : Host.Outcome State Fault Refusal :=
  match s.runState with
  | .halted => .fault .stuckHalted
  | .faulted _ _ _ => .fault .stuckFaulted
  | .running =>
    if s.ipInRange = false then .next (raiseFault .invariantViolation s)
    else if s.atEnd then .next s.halt
    else
      match s.passObserver with
      | none => .next s.wait
      | some s' => exec s.fetchInstr s'

/-- `s` with the table's word `w` stored where `step` fetches next: its two low bits in slot `iph` of `mem[ipl]`
(log 8). -/
def State.withFetchWord (s : State) (_nbits w : Nat) : State := s.placeFetchCode (BitVec.ofNat 2 w)

end Sys2Proof.Machine
end

