-- ==== Sys2Proof/Machine/Loader.lean ====
section
/-! DEFINITION. From a program text to a started run (70_reset_and_hazards.md R161, R163, R164). -/
namespace Sys2Proof.Machine

/-- The load port: an image and a start signal (60_exceptions.md R150). It writes the image to `mem` and resets the
registers (70_reset_and_hazards.md R161). Any 256-byte image will do (R164). -/
def start (cfg : Config) (img : Codec.Image) : State :=
  { State.reset with mem := Memory.ofImage img, config := cfg }

/-- A load: decode, then pack, then start (70_reset_and_hazards.md R163 steps 2 to 4). On a load error there is no
state: the engine never starts (60_exceptions.md R131, R132). -/
def load (cfg : Config) (text : List Byte) : Except Codec.LoadError State :=
  match Codec.decodeProgram text with
  | .error e => .error e
  | .ok s =>
    match Codec.pack s with
    | .error e => .error e
    | .ok img => .ok (start cfg img)

/-- The boot order from a file's bytes (70_reset_and_hazards.md R163 step 1). `strip` is the loader's own policy
`LOADER_STRIP`, which the spec leaves open and outside the block (D15; log 10). -/
def boot (strip : List Byte → List Byte) (cfg : Config) (raw : List Byte) : Except Codec.LoadError State :=
  load cfg (strip raw)

/-- The condition that a load error is (60_exceptions.md R130). -/
def loadCondition (e : Codec.LoadError) : Condition :=
  match e with
  | .invalidInstructionChar _ _ => .invalidInstructionChar
  | .programTooLarge _ => .programTooLarge

end Sys2Proof.Machine
end

