-- ==== Sys2Proof/Machine/Ports.lean ====
section
/-! DEFINITION. The block's ports towards the host (60_exceptions.md R144 to R151; 70_reset_and_hazards.md R165). -/
namespace Sys2Proof.Machine

/-! ### Trace port (60_exceptions.md R144) -/

/-- `TRACE_ENABLE` (00_scope.md R7). -/
def traceEnable (c : Config) : Bool :=
  match c.trace with
  | .off => false
  | .observe => true
  | .blocking => true

/-- `TRACE_BLOCKING` (00_scope.md R7), which requires `TRACE_ENABLE`. -/
def traceBlocking (c : Config) : Bool :=
  match c.trace with
  | .off => false
  | .observe => false
  | .blocking => true

/-- The trace snapshot (60_exceptions.md R144). -/
structure Snapshot where
  ipl : PosLow
  iph : Slot
  dp : Addr
  /-- `mem[dp]`. -/
  cell : Byte
  rpl : PosLow
  rph : Slot
  /-- `char_of(cur)`. -/
  char : Byte
  deriving DecidableEq, Repr

/-- The snapshot's values, all from before the execute phase (60_exceptions.md R144). -/
def State.snapshot (s : State) : Snapshot :=
  { ipl := s.ipl, iph := s.iph, dp := s.dp, cell := s.dataCell, rpl := s.rpl, rph := s.rph,
    char := Codec.charOf s.fetchInstr }

/-- What the step from `s` presents at the trace output, `none` where it is not valid: each step that passes the halt
check presents one snapshot (60_exceptions.md R144). A step that already waits at phase (4) has presented its own
(DEDUCED, log 6). -/
def traceOut (s : State) : Option Snapshot :=
  if traceEnable s.config ∧ s.runState = .running ∧ s.ipl.toNat < memSize ∧ s.traceWait = false then
    some s.snapshot
  else none

/-- The Observer sends one continue signal, a byte (60_exceptions.md R147). Signals queue in the order sent (log 2). -/
def State.signalContinue (s : State) (b : Byte) : State := { s with continueIn := s.continueIn ++ [b] }

/-! ### Status output (60_exceptions.md R130, R151) -/

/-- The condition codes; code 0 is no condition (60_exceptions.md R130; D17). -/
def conditionCode (c : Condition) : Nat :=
  match c with
  | .invalidInstructionChar => 1
  | .programTooLarge => 2
  | .dataPointerOutOfRange => 3
  | .invariantViolation => 4

/-- What the status output carries beside the 2-bit state, in FAULTED only. -/
structure FaultInfo where
  cause : Nat
  faultIpl : PosLow
  faultIph : Slot
  deriving DecidableEq, Repr

/-- The status output: the 2-bit state, and in FAULTED the cause and position (60_exceptions.md R151; D18). -/
structure Status where
  bits : BitVec 2
  fault : Option FaultInfo
  deriving DecidableEq, Repr

/-- The encoding of `run_state` at the status output (60_exceptions.md R151). -/
def statusOut (r : RunState) : Status :=
  match r with
  | .running => { bits := 0b00#2, fault := none }
  | .halted => { bits := 0b01#2, fault := none }
  | .faulted c l h => { bits := 0b10#2, fault := some { cause := conditionCode c, faultIpl := l, faultIph := h } }

/-! ### Read-out (70_reset_and_hazards.md R165) -/

/-- The read-out port: `mem[0..255]`, the five registers and `run_state` (60_exceptions.md R150). -/
structure ReadOut where
  image : Codec.Image
  dp : Addr
  ipl : PosLow
  iph : Slot
  rpl : PosLow
  rph : Slot
  runState : RunState
  deriving DecidableEq, Repr

/-- The final read-out, given at HALTED and at FAULTED (70_reset_and_hazards.md R165; D12). -/
def readOut (s : State) : Option ReadOut :=
  match s.runState with
  | .running => none
  | .halted => some ⟨s.mem.toImage, s.dp, s.ipl, s.iph, s.rpl, s.rph, s.runState⟩
  | .faulted _ _ _ => some ⟨s.mem.toImage, s.dp, s.ipl, s.iph, s.rpl, s.rph, s.runState⟩

/-! ### Codec ports (60_exceptions.md R150), on codes -/

/-- `decode_byte`: 8 bits to four 2-bit codes. -/
def decodeBytePort (b : Byte) : Vector Code slots :=
  #v[Codec.code (Codec.slotInstr b 0#2), Codec.code (Codec.slotInstr b 1#2), Codec.code (Codec.slotInstr b 2#2),
    Codec.code (Codec.slotInstr b 3#2)]

/-- `encode_group`: up to four codes and a count 0..4 to 8 bits; a count above 4 is refused (40_codec.md R82). -/
def encodeGroupPort (cs : Vector Code slots) (count : Nat) : Option Byte :=
  if count ≤ slots then some (Codec.orSlots 0 ((cs.toList.take count).map Codec.instr)) else none

/-- `char_of`: 2 bits to 8 bits. -/
def charOfPort (c : Code) : Byte := Codec.charOf (Codec.instr c)

/-- `instruction_of`: 8 bits to 2 bits plus an error bit. With the error bit set there is no code: `none`. -/
def instructionOfPort (ch : Byte) : Option Code :=
  match Codec.instructionOf ch with
  | .ok i => some (Codec.code i)
  | .error _ => none

end Sys2Proof.Machine
end

