-- ==== Sys2Proof/Safety.lean ====
section
/-! DEFINITION. The terms claims use: runs and what happens along them, the invariant, and the spec's own one-function
form of the step. -/
namespace Sys2Proof.Machine

/-! ### Runs -/

/-- `n` steps, stopping where no step is enabled. -/
def run : Nat → State → Host.Outcome State Fault Refusal
  | 0, s => .next s
  | n + 1, s =>
    match step s with
    | .next t => run n t
    | .fault f => .fault f
    | .refused r => .refused r

/-- The step from `s` executes an instruction: the state is RUNNING, the halt check passes, and a blocking trace has a
continue signal to take (41_execute.md R101, R102; 60_exceptions.md R147). -/
def State.executes (s : State) : Bool :=
  s.runState = .running && decide (s.ipl.toNat < memSize) && s.passObserver.isSome

/-- The state the execute phase starts from: `s` after the observe phase (41_execute.md R105). -/
def State.observed (s : State) : State := s.passObserver.getD s

/-- Along a run of `n` steps from `s`, the states from which an instruction was executed, oldest first. -/
def trail : Nat → State → List State
  | 0, _ => []
  | n + 1, s =>
    match step s with
    | .next t => if s.executes then s :: trail n t else trail n t
    | .fault _ => []
    | .refused _ => []

/-- The snapshots presented along a run of `n` steps from `s`, oldest first (60_exceptions.md R144). -/
def traces : Nat → State → List Snapshot
  | 0, _ => []
  | n + 1, s =>
    (traceOut s).toList ++
      match step s with
      | .next t => traces n t
      | .fault _ => []
      | .refused _ => []

/-- The snapshot already presented for the step that waits in `s`, if one waits (60_exceptions.md R144, R147; log 6). -/
def State.waitingSnapshot (s : State) : List Snapshot := if s.traceWait then [s.snapshot] else []

/-- How many of the states of a trail executed instruction `i`. -/
def countInstr (i : Instr) (l : List State) : Nat := l.countP fun u => u.fetchInstr = i

/-- The state of a trail that executed the most recent `LoopOpen`. -/
def lastOpen (l : List State) : Option State := (l.filter fun u => u.fetchInstr = .loopOpen).getLast?

/-- The current instruction of `s` is a `LoopClose` whose loop condition holds (41_execute.md R108). -/
def State.takesJump (s : State) : Bool := s.fetchInstr = .loopClose && s.loopCondition

/-- What a taken jump adds to the step count: `P(p) - P(r) + 1` (41_execute.md R116). -/
def jumpCost (s : State) : Nat := if s.takesJump then posIndex s.ip - posIndex s.rp + 1 else 0

/-- `s` under another trace mode. -/
def State.withTrace (s : State) (m : TraceMode) : State := { s with config := { s.config with trace := m } }

/-- `s` with other pending continue signals. -/
def State.withSignals (s : State) (l : List Byte) : State := { s with continueIn := l }

/-- `s` is FAULTED. -/
def State.isFaulted (s : State) : Bool :=
  match s.runState with
  | .running => false
  | .halted => false
  | .faulted _ _ _ => true

/-! ### Frames -/

/-- Every cell of memory reads as before. -/
def SameCells (s t : State) : Prop := ∀ a : Addr, t.readByte a = s.readByte a

/-- `run_state`, the trace wait, the configuration and the pending continue signals are as before. -/
def SameControl (s t : State) : Prop :=
  t.runState = s.runState ∧ t.traceWait = s.traceWait ∧ t.config = s.config ∧ t.continueIn = s.continueIn

/-! ### The invariant -/

/-- What holds of every state that a load gives and that steps reach. -/
structure State.Inv (s : State) : Prop where
  /-- Memory keeps its canonical form. -/
  memory : s.mem.wf
  /-- `ipl` stays within 0..256 (60_exceptions.md R135). -/
  iplRange : s.ipl.toNat ≤ memSize
  /-- Every rule that makes `ipl = 256` also makes `iph = 0` (41_execute.md R102). -/
  endSlot : s.ipl = 256#9 → s.iph = 0#2
  /-- The return pointer never lies past the instruction pointer (41_execute.md R114). -/
  returnNotAhead : posIndex s.rp ≤ posIndex s.ip
  /-- The trace wait is a wait of a RUNNING engine under blocking trace, at phase (4) (60_exceptions.md R147). -/
  waitBlocking : s.traceWait = true →
    s.config.trace = .blocking ∧ s.runState = .running ∧ s.ipl.toNat < memSize
  /-- HALTED is reached at `ipl = 256` only (70_reset_and_hazards.md R165). -/
  haltedAtEnd : s.runState = .halted → s.ipl = 256#9
  /-- FAULTED records the only fault there is, at its own position (60_exceptions.md R133, R135). -/
  faultPrecise : ∀ c l h, s.runState = .faulted c l h →
    c = .dataPointerOutOfRange ∧ l = s.ipl ∧ h = s.iph ∧ s.dp = 255#8 ∧ s.config.dpOverflow = .fault ∧
      s.ipl.toNat < memSize ∧ s.fetchInstr = .shiftRight

/-! ### The step as the spec writes it in one function (41_execute.md R113) -/

/-- The state of 41_execute.md R113, in plain numbers; memory is a function of the address. `overflow` is
`DP_OVERFLOW`. -/
structure Plain where
  mem : Nat → Nat
  dp : Nat
  ipl : Nat
  iph : Nat
  rpl : Nat
  rph : Nat
  runState : RunState
  overflow : DpOverflow

/-- `succ` on numbers (00_scope.md R10). -/
def plainSucc (l h : Nat) : Nat × Nat := if h = 3 then (l + 1, 0) else (l, h + 1)

/-- `(ipl, iph) <- succ(ipl, iph)`. -/
def Plain.advance (s : Plain) : Plain :=
  { s with ipl := (plainSucc s.ipl s.iph).1, iph := (plainSucc s.ipl s.iph).2 }

/-- The code in slot `h` of a byte of value `b`: `(b >> (6 - 2h)) & 0b11` (30_encoding.md R62). -/
def plainSlot (b h : Nat) : Nat := b / 2 ^ (6 - 2 * h) % 4

/-- `step(s)` of 41_execute.md R113, for a RUNNING state and with the trace port left out. -/
def Plain.step (s : Plain) : Plain :=
  if s.ipl = 256 then { s with runState := .halted }
  else
    match plainSlot (s.mem s.ipl) s.iph with
    | 0 =>
      { s with rpl := (plainSucc s.ipl s.iph).1, rph := (plainSucc s.ipl s.iph).2 }.advance
    | 1 =>
      if s.mem s.dp ≠ 0 then { s with ipl := s.rpl, iph := s.rph } else s.advance
    | 2 =>
      { s with mem := fun a => if a = s.dp then (s.mem s.dp + 1) % 256 else s.mem a }.advance
    | _ =>
      if s.dp = 255 then
        match s.overflow with
        | .fault =>
          { s with runState := .faulted .dataPointerOutOfRange (BitVec.ofNat 9 s.ipl) (BitVec.ofNat 2 s.iph) }
        | .wrap => { s with dp := 0 }.advance
      else { s with dp := s.dp + 1 }.advance

/-- A state of the model read in plain numbers. -/
def State.plain (s : State) : Plain where
  mem a := (s.mem.read a).toNat
  dp := s.dp.toNat
  ipl := s.ipl.toNat
  iph := s.iph.toNat
  rpl := s.rpl.toNat
  rph := s.rph.toNat
  runState := s.runState
  overflow := s.config.dpOverflow

end Sys2Proof.Machine
end

