-- ==== Sys2Proof/Certificates/Slice0/Obligations.lean ====
section
/-! DEFINITION. The statements for the provers, from the numbered rules of spec/, in the order of the spec's files. -/

open Sys2Proof Sys2Proof.Machine

/-! ### The codec -/

/-- 40_codec.md R80: `instr` and `code` are the two tables, total and each the inverse of the other. -/
def Obligations.CodesAndInstructionsAreInverse : Prop :=
  (Codec.instr 0b00#2 = .loopOpen ∧ Codec.instr 0b01#2 = .loopClose ∧ Codec.instr 0b10#2 = .increment ∧
    Codec.instr 0b11#2 = .shiftRight) ∧
  (Codec.code .loopOpen = 0b00#2 ∧ Codec.code .loopClose = 0b01#2 ∧ Codec.code .increment = 0b10#2 ∧
    Codec.code .shiftRight = 0b11#2) ∧
  (∀ c, Codec.code (Codec.instr c) = c) ∧ ∀ i, Codec.instr (Codec.code i) = i

/-- 30_encoding.md R62: a byte is its four codes in order, slot 0 the most significant pair; slot `k` is the field
`b[7-2k : 6-2k]`, which is `(b >> (6 - 2k)) & 0b11`; and the rule's example. -/
def Obligations.PackedByteIsMostSignificantPairFirst : Prop :=
  (∀ i0 i1 i2 i3 : Instr, Codec.encodeGroup [i0, i1, i2, i3] =
    .ok (Codec.code i0 ++ Codec.code i1 ++ Codec.code i2 ++ Codec.code i3)) ∧
  (∀ (b : Byte) (k : Slot), Codec.code (Codec.slotInstr b k) = b.extractLsb' (6 - 2 * k.toNat) 2 ∧
    (Codec.code (Codec.slotInstr b k)).setWidth 8 = (b >>> (6 - 2 * k.toNat)) &&& 0b11#8) ∧
  Codec.encodeGroup [.loopOpen, .loopClose, .increment, .shiftRight] = .ok 0x1B#8

/-- 40_codec.md R81: `decode_byte` splits a byte into its four fields, most significant first, and maps each by `instr`;
with the rule's corner cases and examples. That it cannot fail and yields exactly four is its type. -/
def Obligations.DecodeByteSplitsIntoFourSlots : Prop :=
  (∀ (b : Byte) (k : Fin 4), (Codec.decodeByte b)[k] = Codec.instr (b.extractLsb' (6 - 2 * k.val) 2)) ∧
  Codec.decodeByte 0x00#8 = #v[.loopOpen, .loopOpen, .loopOpen, .loopOpen] ∧
  Codec.decodeByte 0xFF#8 = #v[.shiftRight, .shiftRight, .shiftRight, .shiftRight] ∧
  Codec.decodeByte 0x1B#8 = #v[.loopOpen, .loopClose, .increment, .shiftRight] ∧
  Codec.decodeByte 0xE4#8 = #v[.shiftRight, .increment, .loopClose, .loopOpen]

/-- 40_codec.md section 3: `encode_group` puts instruction `k` in slot `k` and leaves the other slots `00`; the empty
group gives `0x00` and more than four are refused (the spec's decision D8). -/
def Obligations.EncodeGroupFillsSlotsAndRefusesFive : Prop :=
  (∀ s : List Instr, s.length ≤ 4 → ∃ b : Byte, Codec.encodeGroup s = .ok b ∧
    ∀ k : Slot, b.extractLsb' (6 - 2 * k.toNat) 2 = ((s[k.toNat]?).map Codec.code).getD 0b00#2) ∧
  (∀ s : List Instr, 4 < s.length → Codec.encodeGroup s = .error (.groupTooLong s.length)) ∧
  Codec.encodeGroup [] = .ok 0x00#8

/-- 40_codec.md section 6, the round trip: a group of at most four decodes to itself followed by LoopOpen padding, and
every byte is the group of what it decodes to (the spec derives the second half, and D8 gives the empty group). -/
def Obligations.GroupRoundTripPadsWithLoopOpen : Prop :=
  (∀ s : List Instr, s.length ≤ 4 → ∃ b : Byte, Codec.encodeGroup s = .ok b ∧
    (Codec.decodeByte b).toList = s ++ List.replicate (4 - s.length) .loopOpen) ∧
  ∀ b : Byte, Codec.encodeGroup (Codec.decodeByte b).toList = .ok b

/-- 40_codec.md section 4: `char_of` and `instruction_of` are inverse on the alphabet, and every other byte is
`InvalidInstructionChar`. The byte values are ASCII, the spec's decision D6 (log 9); the rejected examples are `{`,
newline, carriage return, `<`, `-`, `.`, `,`, space, NUL and every byte from 0x80. -/
def Obligations.AlphabetIsExactlyFourCharacters : Prop :=
  (Codec.charOf .loopOpen = 0x5B#8 ∧ Codec.charOf .loopClose = 0x5D#8 ∧ Codec.charOf .increment = 0x2B#8 ∧
    Codec.charOf .shiftRight = 0x3E#8) ∧
  (∀ ch i, Codec.instructionOf ch = .ok i ↔ ch = Codec.charOf i) ∧
  (∀ ch, (∀ i, ch ≠ Codec.charOf i) → Codec.instructionOf ch = .error (.invalidInstructionChar ch)) ∧
  (∀ ch ∈ [0x7B#8, 0x0A#8, 0x0D#8, 0x3C#8, 0x2D#8, 0x2E#8, 0x2C#8, 0x20#8, 0x00#8],
    Codec.instructionOf ch = .error (.invalidInstructionChar ch)) ∧
  ∀ ch : Byte, 0x80 ≤ ch.toNat → Codec.instructionOf ch = .error (.invalidInstructionChar ch)

/-- 40_codec.md R85 and 60_exceptions.md R131: `decode_program` maps every character in order; it fails exactly at the
first invalid character, with that byte and its index, and then the load gives no state. -/
def Obligations.DecodeProgramReportsTheFirstInvalidCharacter : Prop :=
  (∀ (t : List Byte) (s : List Instr), Codec.decodeProgram t = .ok s ↔ t.map Codec.instructionOf = s.map .ok) ∧
  (∀ (t : List Byte) (b : Byte) (j : Nat), Codec.decodeProgram t = .error (.invalidInstructionChar b j) ↔
    t[j]? = some b ∧ Codec.instructionOf b = .error (.invalidInstructionChar b) ∧
      ∀ k < j, ∀ c, t[k]? = some c → ∃ i, Codec.instructionOf c = .ok i) ∧
  (∀ (t : List Byte) (n : Nat), Codec.decodeProgram t ≠ .error (.programTooLarge n)) ∧
  (∀ (cfg : Config) (t : List Byte) (e : Codec.LoadError), Codec.decodeProgram t = .error e →
    load cfg t = .error e) ∧
  Codec.decodeProgram [] = .ok [] ∧
  Codec.decodeProgram [Codec.charOf .increment, Codec.charOf .loopClose] = .ok [.increment, .loopClose]

/-- 40_codec.md R86: byte `i` of the image is the group of the `i`-th chunk of at most four instructions, and the bytes
past the program are zero; more than 1024 instructions are `ProgramTooLarge`, and the load fails before there is a
state; with the rule's example. -/
def Obligations.PackChunksTheProgramAndZeroFills : Prop :=
  (∀ s : List Instr, s.length ≤ 1024 → ∃ img : Codec.Image, Codec.pack s = .ok img ∧
    ∀ i : Fin 256, (4 * i.val < s.length → Codec.encodeGroup ((s.drop (4 * i.val)).take 4) = .ok img[i]) ∧
      (s.length ≤ 4 * i.val → img[i] = 0x00#8)) ∧
  (∀ s : List Instr, 1024 < s.length → Codec.pack s = .error (.programTooLarge s.length)) ∧
  (∀ (cfg : Config) (t : List Byte) (s : List Instr), Codec.decodeProgram t = .ok s → 1024 < s.length →
    load cfg t = .error (.programTooLarge s.length)) ∧
  ∃ img : Codec.Image, Codec.pack [.increment, .loopClose, .increment, .increment, .shiftRight] = .ok img ∧
    img[0] = 0x9A#8 ∧ img[1] = 0xC0#8

/-- 40_codec.md section 6 and 30_encoding.md section 2: reading all positions of a program's image in order gives the
program back, instruction `j` at linear index `j`, followed by LoopOpens up to 1024. -/
def Obligations.ImageReadsBackAsTheProgram : Prop :=
  ∀ (s : List Instr) (img : Codec.Image), Codec.pack s = .ok img →
    s.length ≤ 1024 ∧ Codec.unpack img = s ++ List.replicate (1024 - s.length) .loopOpen

/-- 40_codec.md section 6 (the spec derives it): trailing LoopOpens leave no mark in the image. -/
def Obligations.PackForgetsTrailingLoopOpens : Prop :=
  ∀ (s : List Instr) (k : Nat), s.length + k ≤ 1024 →
    Codec.pack (s ++ List.replicate k .loopOpen) = Codec.pack s

/-! ### Load and reset -/

/-- 60_exceptions.md R132: the load fails with `ProgramTooLarge(n)` exactly when every character is valid and their
count `n` exceeds 1024; with an invalid character anywhere, `InvalidInstructionChar` is reported instead. -/
def Obligations.ProgramTooLargeOnlyForValidTexts : Prop :=
  (∀ (cfg : Config) (t : List Byte) (n : Nat), load cfg t = .error (.programTooLarge n) ↔
    (∀ b ∈ t, ∃ i, Codec.instructionOf b = .ok i) ∧ t.length = n ∧ 1024 < n) ∧
  ∀ (cfg : Config) (t : List Byte), (∃ b ∈ t, ∀ i, Codec.instructionOf b ≠ .ok i) →
    ∃ b j, load cfg t = .error (.invalidInstructionChar b j)

/-- 70_reset_and_hazards.md R161: what a load leaves, complete. The registers are zero, the engine is RUNNING and not
waiting, the entry point is position (0, 0), and the memory is the program's image. The first clause says which texts
load, by the boot order's steps 2 to 4 (R163): those of at most 1024 valid characters, under every configuration. -/
def Obligations.LoadGivesTheResetState : Prop :=
  (∀ (cfg : Config) (t : List Byte), (∃ st : State, load cfg t = .ok st) ↔
    (∀ b ∈ t, ∃ i, Codec.instructionOf b = .ok i) ∧ t.length ≤ 1024) ∧
  ∀ (cfg : Config) (t : List Byte) (st : State), load cfg t = .ok st →
    (∃ (s : List Instr) (img : Codec.Image), Codec.decodeProgram t = .ok s ∧ Codec.pack s = .ok img ∧
      (∀ a : Addr, st.readByte a = img[a.toNat]'a.isLt) ∧ st.mem.toImage = img) ∧
    st.dp = 0#8 ∧ st.ipl = 0#9 ∧ st.iph = 0#2 ∧ st.rpl = 0#9 ∧ st.rph = 0#2 ∧ st.runState = .running ∧
    st.traceWait = false ∧ st.config = cfg

/-- 70_reset_and_hazards.md section 1: `State.reset` is the reset state of the empty program, whose 256 bytes are zero.
That it holds this image and the spec's configuration is the model's choice (log 1, 3). -/
def Obligations.ResetIsTheLoadOfTheEmptyProgram : Prop :=
  load Config.standard [] = .ok State.reset ∧ ∀ a : Addr, State.reset.readByte a = 0#8

/-- 30_encoding.md section 2 and 70_reset_and_hazards.md section 2: after a load, fetching at linear index `j` gives
the text's `j`-th instruction, and LoopOpen at every position past the program. -/
def Obligations.LoadedProgramIsFetchedInOrder : Prop :=
  ∀ (cfg : Config) (t : List Byte) (st : State), load cfg t = .ok st →
    ∃ s : List Instr, Codec.decodeProgram t = .ok s ∧
      ∀ p : Pos, p.l.toNat < 256 → (st.setIp p).fetchInstr = (s[posIndex p]?).getD .loopOpen

/-! ### The step -/

/-- 41_execute.md section 1 (D4, D18): a step is enabled only in RUNNING; in HALTED and FAULTED there is none; and a
blocking step with no continue signal waits. That a state with no step enabled answers a named fault, and a waiting one
a next state, is the model's form (log 4, 5). -/
def Obligations.StepIsEnabledOnlyWhenRunning : Prop :=
  (∀ s : State, (∃ t, step s = .next t) ↔ s.runState = .running) ∧
  (∀ s : State, s.runState = .halted → step s = .fault .stuckHalted) ∧
  (∀ (s : State) (c : Condition) (l : PosLow) (h : Slot), s.runState = .faulted c l h →
    step s = .fault .stuckFaulted) ∧
  ∀ s : State, s.runState = .running → s.ipl.toNat < 256 → traceBlocking s.config = true → s.continueIn = [] →
    step s = .next { s with traceWait := true }

/-- 41_execute.md R102: at `ipl = 256` the step only sets HALTED, with no snapshot and no other write, whatever `iph` is;
a step halts in no other way; and every step that makes `ipl = 256` makes `iph = 0`. -/
def Obligations.HaltCheckEndsTheRunAtAddress256 : Prop :=
  (∀ s : State, s.runState = .running → s.ipl = 256#9 →
    step s = .next { s with runState := .halted } ∧ traceOut s = none) ∧
  (∀ s t : State, step s = .next t → t.runState = .halted → s.ipl = 256#9) ∧
  ∀ s t : State, s.Inv → step s = .next t → t.ipl = 256#9 → t.iph = 0#2

/-- 41_execute.md R103, R104: a step that passes the halt check, under a trace that does not block, decodes `mem[ipl]`
as it stands, selects slot `iph`, which is the field `[7-2*iph : 6-2*iph]`, and runs that instruction: what it then
writes cannot change which instruction that was. -/
def Obligations.StepRunsTheDecodedInstruction : Prop :=
  ∀ s : State, s.runState = .running → s.ipl.toNat < 256 → s.config.trace ≠ .blocking →
    step s = exec ((Codec.decodeByte (s.readByte (s.ipl.setWidth 8)))[s.iph.toNat]'s.iph.isLt) s ∧
    (Codec.decodeByte (s.readByte (s.ipl.setWidth 8)))[s.iph.toNat]'s.iph.isLt =
      Codec.instr ((s.readByte (s.ipl.setWidth 8)).extractLsb' (6 - 2 * s.iph.toNat) 2)

/-- 60_exceptions.md section 4 (D11; the queue of signals is log 2): a blocking step executes exactly when a continue
signal is pending; it then takes the oldest one, of any value, and runs the fetched instruction. -/
def Obligations.BlockingStepTakesOneContinueSignal : Prop :=
  ∀ s : State, s.config.trace = .blocking →
    (s.executes = true ↔ s.runState = .running ∧ s.ipl.toNat < 256 ∧ s.continueIn ≠ []) ∧
    (s.executes = true →
      step s = exec s.fetchInstr { s with traceWait := false, continueIn := s.continueIn.tail })

/-! ### The four instructions -/

/-- 41_execute.md R107: LoopOpen completes in every state; the return pointer and, after the advance, the instruction
pointer are the position right after it, with carry from slot 3, up to (256, 0); nothing else changes, whatever
`mem[dp]` holds; and every slot of a zero byte is a LoopOpen. -/
def Obligations.LoopOpenSetsTheReturnPointer : Prop :=
  (∀ s : State, s.iph = 3#2 →
    exec .loopOpen s = .next { s with rpl := s.ipl + 1#9, rph := 0#2, ipl := s.ipl + 1#9, iph := 0#2 }) ∧
  (∀ s : State, s.iph ≠ 3#2 →
    exec .loopOpen s = .next { s with rph := s.iph + 1#2, rpl := s.ipl, iph := s.iph + 1#2 }) ∧
  (∀ s : State, s.ipl = 255#9 → s.iph = 3#2 →
    exec .loopOpen s = .next { s with rpl := 256#9, rph := 0#2, ipl := 256#9, iph := 0#2 }) ∧
  ∀ h : Slot, Codec.slotInstr 0x00#8 h = .loopOpen

/-- 41_execute.md R108: LoopClose completes in every state; with `mem[dp] ≠ 0` it goes to the return pointer and does not
advance, else it advances; nothing else changes; and a taken one at the return pointer's own position repeats for
ever, under a trace that does not block. -/
def Obligations.LoopCloseJumpsWhileTheCellIsNonzero : Prop :=
  (∀ s : State, s.readByte s.dp ≠ 0#8 → exec .loopClose s = .next { s with ipl := s.rpl, iph := s.rph }) ∧
  (∀ s : State, s.readByte s.dp = 0#8 → s.iph ≠ 3#2 → exec .loopClose s = .next { s with iph := s.iph + 1#2 }) ∧
  (∀ s : State, s.readByte s.dp = 0#8 → s.iph = 3#2 →
    exec .loopClose s = .next { s with ipl := s.ipl + 1#9, iph := 0#2 }) ∧
  ∀ (s : State) (n : Nat), s.executes = true → s.config.trace ≠ .blocking → s.fetchInstr = .loopClose →
    s.readByte s.dp ≠ 0#8 → s.rp = s.ip → run n s = .next s

/-- 41_execute.md R109: Increment completes in every state; `mem[dp]` becomes its value plus 1 mod 256, with no fault at
255; every other cell and register but the advanced instruction pointer is as before; and where `dp` is the current
program byte, the next fetch from it decodes the new value. -/
def Obligations.IncrementAddsOneToTheCell : Prop :=
  ∀ s : State, ∃ t : State, exec .increment s = .next t ∧
    t.readByte s.dp = s.readByte s.dp + 1#8 ∧
    (t.readByte s.dp).toNat = ((s.readByte s.dp).toNat + 1) % 256 ∧
    (∀ a : Addr, a ≠ s.dp → t.readByte a = s.readByte a) ∧
    t.ip = posSucc s.ip ∧ t.dp = s.dp ∧ t.rp = s.rp ∧ SameControl s t ∧
    (s.ipl = s.dp.setWidth 9 → s.iph ≠ 3#2 →
      t.fetchInstr = Codec.slotInstr (s.readByte s.dp + 1#8) (s.iph + 1#2))

/-- 41_execute.md R110: ShiftRight completes below 255 with `dp + 1` and the advance, and nothing else; at 255 FAULT
raises DataPointerOutOfRange at its own position and writes nothing else, and WRAP sets `dp` to 0 and advances; and
under FAULT a run that does not fault makes no more ShiftRights than lead from its first `dp` to 255. -/
def Obligations.ShiftRightAdvancesTheDataPointer : Prop :=
  (∀ s : State, s.dp ≠ 255#8 → ∃ t : State, exec .shiftRight s = .next t ∧ t.dp.toNat = s.dp.toNat + 1 ∧
    t.ip = posSucc s.ip ∧ t.rp = s.rp ∧ SameCells s t ∧ SameControl s t) ∧
  (∀ s : State, s.dp = 255#8 → s.config.dpOverflow = .fault →
    exec .shiftRight s = .next { s with runState := .faulted .dataPointerOutOfRange s.ipl s.iph }) ∧
  (∀ s : State, s.dp = 255#8 → s.config.dpOverflow = .wrap → ∃ t : State, exec .shiftRight s = .next t ∧
    t.dp = 0#8 ∧ t.ip = posSucc s.ip ∧ t.rp = s.rp ∧ SameCells s t ∧ SameControl s t) ∧
  ∀ (n : Nat) (s t : State), s.config.dpOverflow = .fault → run n s = .next t → t.isFaulted = false →
    s.dp.toNat + countInstr .shiftRight (trail n s) ≤ 255

/-- 60_exceptions.md R133 (its policy is the spec's decision D3): the faulting ShiftRight leaves `dp` at 255, the memory,
both pointers and everything else as they were, and `run_state` FAULTED with cause 3 and its own position; under WRAP
no step raises the condition. -/
def Obligations.DataPointerFaultIsPrecise : Prop :=
  (∀ s : State, s.executes = true → s.fetchInstr = .shiftRight → s.dp = 255#8 → s.config.dpOverflow = .fault →
    ∃ t : State, step s = .next t ∧ t.dp = 255#8 ∧ t.mem = s.mem ∧ t.ip = s.ip ∧ t.rp = s.rp ∧
      t.runState = .faulted .dataPointerOutOfRange s.ipl s.iph ∧
      (statusOut t.runState).fault = some { cause := 3, faultIpl := s.ipl, faultIph := s.iph }) ∧
  ∀ (s t : State) (l : PosLow) (h : Slot), s.config.dpOverflow = .wrap → step s = .next t →
    t.runState ≠ .faulted .dataPointerOutOfRange l h

/-- 41_execute.md R112: unless a LoopClose jumped or the instruction faulted, `iph` goes up by one, or from 3 to 0 with
`ipl` up by one; from (255, 3) that is (256, 0), where the next step halts; and `ipl` never passes 256. -/
def Obligations.AdvanceCarriesIntoTheNextByte : Prop :=
  (∀ (i : Instr) (s t : State), exec i s = .next t → ¬ (i = .loopClose ∧ s.loopCondition = true) →
    t.isFaulted = false →
      (s.iph ≠ 3#2 → t.ipl = s.ipl ∧ t.iph = s.iph + 1#2) ∧
      (s.iph = 3#2 → t.ipl = s.ipl + 1#9 ∧ t.iph = 0#2) ∧
      (s.ipl = 255#9 → s.iph = 3#2 → t.ipl = 256#9 ∧ t.iph = 0#2 ∧
        (t.runState = .running → step t = .next { t with runState := .halted }))) ∧
  ∀ s t : State, s.Inv → step s = .next t → t.ipl.toNat ≤ 256

/-- The frame of the instructions that store nothing (41_execute.md section 2; 10_state.md section 5). LoopOpen may change
the two pointers, LoopClose the instruction pointer, ShiftRight `dp` and the instruction pointer, or `run_state` alone
where it faults. -/
def Obligations.NonStoringInstructionsKeepTheRest : Prop :=
  (∀ s t : State, exec .loopOpen s = .next t → SameCells s t ∧ t.dp = s.dp ∧ SameControl s t) ∧
  (∀ s t : State, exec .loopClose s = .next t → SameCells s t ∧ t.dp = s.dp ∧ t.rp = s.rp ∧ SameControl s t) ∧
  ∀ s t : State, exec .shiftRight s = .next t → SameCells s t ∧ t.rp = s.rp ∧ t.traceWait = s.traceWait ∧
    t.config = s.config ∧ t.continueIn = s.continueIn ∧
    (t.runState = s.runState ∨ (s.dp = 255#8 ∧ s.config.dpOverflow = .fault ∧ t.dp = s.dp ∧ t.ip = s.ip))

/-- The frame of the one instruction that stores: Increment stores one byte, at `dp`, and keeps all but that cell and the
instruction pointer (41_execute.md section 2; 10_state.md section 5). -/
def Obligations.IncrementStoresOneByteAtDp : Prop :=
  ∀ s t : State, exec .increment s = .next t →
    (∀ a : Addr, a ≠ s.dp → t.readByte a = s.readByte a) ∧ t.dp = s.dp ∧ t.rp = s.rp ∧ SameControl s t

/-- 41_execute.md R111: whatever a step changes in memory, `dp`, the return pointer or `run_state`, the instruction it
executes is the one whose rule names it (or it is the halt check); and only a step that executes moves `ipl` or `iph`. -/
def Obligations.StepWritesOnlyWhatItsInstructionNames : Prop :=
  ∀ s t : State, step s = .next t →
    (∀ a : Addr, t.readByte a ≠ s.readByte a → s.executes = true ∧ s.fetchInstr = .increment ∧ a = s.dp) ∧
    (t.dp ≠ s.dp → s.executes = true ∧ s.fetchInstr = .shiftRight) ∧
    (t.rp ≠ s.rp → s.executes = true ∧ s.fetchInstr = .loopOpen) ∧
    (t.ip ≠ s.ip → s.executes = true) ∧
    (t.runState ≠ s.runState → s.ipl.toNat ≤ 256 → s.ipl = 256#9 ∨
      (s.executes = true ∧ s.fetchInstr = .shiftRight ∧ s.dp = 255#8))

/-- 70_reset_and_hazards.md section 1 (D3, D11; that it stands in State is log 1): the configuration is fixed for a whole
run. -/
def Obligations.ConfigurationIsFixedForTheRun : Prop :=
  ∀ (n : Nat) (s t : State), run n s = .next t → t.config = s.config

/-! ### Whole-machine rules -/

/-- The invariant that every step keeps (41_execute.md section 4; 60_exceptions.md section 1; `State.Inv` says each part). -/
def Obligations.StepKeepsTheInvariant : Prop :=
  ∀ s t : State, s.Inv → step s = .next t → t.Inv

/-- The invariant holds at reset. -/
def Obligations.ResetMeetsTheInvariant : Prop := State.reset.Inv

/-- The invariant holds of every state that a load gives, and of any image started (70_reset_and_hazards.md section 2). -/
def Obligations.LoadMeetsTheInvariant : Prop :=
  (∀ (cfg : Config) (t : List Byte) (st : State), load cfg t = .ok st → st.Inv) ∧
  ∀ (cfg : Config) (img : Codec.Image), (start cfg img).Inv

/-- 41_execute.md section 4 and 10_state.md section 3 (the spec derives them): a taken LoopClose never jumps forward, and
never reads `rpl = 256`. -/
def Obligations.TakenLoopCloseNeverJumpsForward : Prop :=
  ∀ s t : State, s.Inv → s.executes = true → s.takesJump = true → step s = .next t →
    t.ip = s.rp ∧ posIndex t.ip ≤ posIndex s.ip ∧ s.rpl.toNat < 256

/-- 70_reset_and_hazards.md R171: after any run the return pointer is the position after the most recent LoopOpen
executed, padding and zero fill included, or what it was at the start if none was; so that is where a taken LoopClose
goes, whatever brackets match. -/
def Obligations.ReturnPointerFollowsTheLastLoopOpen : Prop :=
  (∀ (n : Nat) (s t : State), run n s = .next t →
    t.rp = ((lastOpen (trail n s)).map fun u => posSucc u.ip).getD s.rp) ∧
  ∀ (n : Nat) (s t u : State), run n s = .next t → t.executes = true → t.takesJump = true → step t = .next u →
    u.ip = ((lastOpen (trail n s)).map fun v => posSucc v.ip).getD s.rp

/-- 41_execute.md section 4 (the spec derives it): the instruction pointer and the return pointer agree exactly when the
most recently executed LoopOpen is the one at the index just before. -/
def Obligations.SelfLoopOnlyRightAfterItsLoopOpen : Prop :=
  ∀ (n : Nat) (s t v : State), run n s = .next t → lastOpen (trail n s) = some v →
    (posIndex t.rp = posIndex t.ip ↔ posIndex v.ip + 1 = posIndex t.ip)

/-- 41_execute.md sections 2 and 3, over runs: a cell holds its first value plus the number of Increments executed with
`dp` at it, mod 256; nothing else ever changes memory. -/
def Obligations.CellCountsItsIncrements : Prop :=
  ∀ (n : Nat) (s t : State) (a : Addr), run n s = .next t →
    t.readByte a = s.readByte a +
      BitVec.ofNat 8 (countInstr .increment ((trail n s).filter fun u => u.dp = a))

/-- 41_execute.md section 2, over runs that do not fault: `dp` is its first value plus the number of ShiftRights executed,
mod 256 (under FAULT it never comes to wrap, see ShiftRightAdvancesTheDataPointer). -/
def Obligations.DataPointerCountsShiftRights : Prop :=
  ∀ (n : Nat) (s t : State), run n s = .next t → t.isFaulted = false →
    t.dp = s.dp + BitVec.ofNat 8 (countInstr .shiftRight (trail n s))

/-- 41_execute.md section 4, step count (the spec derives it): every executed step raises the position's index by one,
less what taken jumps take back; so a run that halts has executed 1024 steps, less the index it began at, plus
`P(p) - P(r) + 1` for each taken jump. -/
def Obligations.StepCountAccountsForEveryJump : Prop :=
  ∀ (n : Nat) (s t : State), s.Inv → run n s = .next t → t.isFaulted = false →
    posIndex t.ip + ((trail n s).map jumpCost).sum = posIndex s.ip + (trail n s).length ∧
    (t.runState = .halted →
      posIndex s.ip + (trail n s).length = 1024 + ((trail n s).map jumpCost).sum)

/-- 41_execute.md section 4, step count (the spec derives it): a run that takes no jump and does not fault halts, at
(256, 0), after exactly as many executed steps as positions are left; from reset that is 1024. -/
def Obligations.RunWithoutJumpsHalts : Prop :=
  ∀ s : State, s.Inv → s.runState = .running → s.config.trace ≠ .blocking →
    (∀ u ∈ trail (1024 - posIndex s.ip) s, u.takesJump = false) →
    (∀ (j : Nat) (t : State), run j s = .next t → t.isFaulted = false) →
    ∃ t : State, run (1024 - posIndex s.ip + 1) s = .next t ∧ t.runState = .halted ∧ t.ip = ⟨256#9, 0#2⟩ ∧
      (trail (1024 - posIndex s.ip + 1) s).length = 1024 - posIndex s.ip

/-- 60_exceptions.md section 1: from a state that meets the invariant a step raises no condition but
DataPointerOutOfRange; and where `ipl` is out of range the step records InvariantViolation, code 4, at once and goes
no further. That the check is of `ipl` alone and stands before the halt check is the model's reading (log 7). -/
def Obligations.InvariantViolationIsRecordedAndUnreachable : Prop :=
  (∀ (s t : State) (c : Condition) (l : PosLow) (h : Slot), s.Inv → step s = .next t →
    t.runState = .faulted c l h → c = .dataPointerOutOfRange) ∧
  ∀ s : State, s.runState = .running → 256 < s.ipl.toNat →
    step s = .next { s with runState := .faulted .invariantViolation s.ipl s.iph }

/-- 41_execute.md R113 (the spec derives it from its rules): where a step executes or halts, the model's step is the
spec's one-function step, written on plain numbers. -/
def Obligations.StepRefinesTheOneFunctionStep : Prop :=
  ∀ s : State, s.runState = .running → s.ipl.toNat ≤ 256 → (s.executes = true ∨ s.ipl = 256#9) →
    ∃ t : State, step s = .next t ∧ t.plain = s.plain.step

/-- 20_memory.md section 4 (the spec derives it): the fetch after an Increment sees the byte it wrote, in the same byte
too, and every other byte as it was. -/
def Obligations.NextFetchSeesTheIncrement : Prop :=
  ∀ s t : State, s.executes = true → s.fetchInstr = .increment → step s = .next t →
    t.fetchByte = if t.ipl.setWidth 8 = s.dp then s.readByte s.dp + 1#8 else s.readByte (t.ipl.setWidth 8)

/-- 10_state.md section 2: memory is its 256 cells and nothing more; two canonical memories that read alike at every
address are the same data. -/
def Obligations.MemoriesThatReadAlikeAreEqual : Prop :=
  ∀ m m' : Memory, m.wf → m'.wf → (∀ a < 256, m.read a = m'.read a) → m = m'

/-- 00_scope.md section 5: `P(succ(l, h)) = P(l, h) + 1` at every position with `l ≤ 256`. -/
def Obligations.SuccessorRaisesTheIndexByOne : Prop :=
  ∀ p : Pos, p.l.toNat ≤ 256 → posIndex (posSucc p) = posIndex p + 1

/-! ### The trace port and the status output -/

/-- 60_exceptions.md R144: with tracing enabled, a step that passes the halt check presents the snapshot of the values
before it executes; with tracing off, and at the halt check that ends the run, none is presented. The state of a step
that already waits has its clause in OneSnapshotPerExecutedStep. -/
def Obligations.TraceSnapshotShowsTheStateBeforeExecution : Prop :=
  (∀ s : State, traceEnable s.config = true → s.runState = .running → s.ipl.toNat < 256 → s.traceWait = false →
    traceOut s = some { ipl := s.ipl, iph := s.iph, dp := s.dp, cell := s.readByte s.dp, rpl := s.rpl, rph := s.rph,
                        char := Codec.charOf s.fetchInstr }) ∧
  (∀ s : State, traceEnable s.config = false → traceOut s = none) ∧
  ∀ s : State, s.ipl = 256#9 → traceOut s = none

/-- 95_test_vectors.md section 2.7 and 60_exceptions.md section 4: under a trace that does not block, a run presents
exactly one snapshot for each executed step, that of the state it executed from. Under a blocking trace too, however
long it waits: a step presents its snapshot once, when it enters phase (4), so the count is exact with the snapshot of
a wait still open at either end of the run. That a step that already waits presents none is the model's choice (log 6;
the waiting step log 5). -/
def Obligations.OneSnapshotPerExecutedStep : Prop :=
  (∀ (n : Nat) (s : State), s.config.trace = .observe → s.traceWait = false →
    traces n s = (trail n s).map State.snapshot) ∧
  (∀ s : State, s.traceWait = true → traceOut s = none) ∧
  ∀ (n : Nat) (s t : State), s.Inv → traceEnable s.config = true → run n s = .next t →
    s.waitingSnapshot ++ traces n s = (trail n s).map State.snapshot ++ t.waitingSnapshot

/-- 60_exceptions.md R146: with tracing set or clear, the sequence of states is the same: after any number of steps the
two runs differ in the configured trace mode only, and end together. -/
def Obligations.TracingLeavesTheStatesTheSame : Prop :=
  ∀ (n : Nat) (s : State),
    (∀ t, run n (s.withTrace .off) = .next t → run n (s.withTrace .observe) = .next (t.withTrace .observe)) ∧
    (∀ f, run n (s.withTrace .off) = .fault f → run n (s.withTrace .observe) = .fault f)

/-- 60_exceptions.md section 4 (D11; the queue of signals is log 2): a blocking trace with a continue signal for every
executed step goes through the same states as no trace, whatever the signals' values, and takes one signal for each. -/
def Obligations.BlockingTraceGivesTheSameStates : Prop :=
  ∀ (n : Nat) (s t : State) (l : List Byte), s.traceWait = false →
    run n (s.withTrace .off) = .next t → (trail n (s.withTrace .off)).length ≤ l.length →
    run n ((s.withTrace .blocking).withSignals l) =
      .next ((t.withTrace .blocking).withSignals (l.drop (trail n (s.withTrace .off)).length))

/-- 60_exceptions.md section 4 (D11; the queue of signals is log 2, the waiting step log 5): with no continue signal a
blocking step waits for ever with no other change; one signal, of any value, releases it; and blocking requires the
trace to be enabled. -/
def Obligations.BlockingStepWaitsForOneSignal : Prop :=
  (∀ (s : State) (n : Nat), s.runState = .running → s.ipl.toNat < 256 → s.config.trace = .blocking →
    s.continueIn = [] → run (n + 1) s = .next { s with traceWait := true }) ∧
  (∀ (s : State) (b : Byte), s.runState = .running → s.ipl.toNat < 256 → s.config.trace = .blocking →
    s.continueIn = [] →
    step ({ s with traceWait := true }.signalContinue b) = exec s.fetchInstr { s with traceWait := false }) ∧
  ∀ c : Config, traceBlocking c = true → traceEnable c = true

/-- 60_exceptions.md R151: the status output encodes RUNNING `00`, HALTED `01`, FAULTED `10`, never `11`, and in FAULTED
carries the cause's code and the position (D18). -/
def Obligations.StatusOutputEncodesRunState : Prop :=
  statusOut .running = { bits := 0b00#2, fault := none } ∧
  statusOut .halted = { bits := 0b01#2, fault := none } ∧
  (∀ (c : Condition) (l : PosLow) (h : Slot), statusOut (.faulted c l h) =
    { bits := 0b10#2, fault := some { cause := conditionCode c, faultIpl := l, faultIph := h } }) ∧
  ∀ r : RunState, (statusOut r).bits ≠ 0b11#2

/-- 60_exceptions.md section 1, the table of conditions (codes: D17): the four codes, and the two load errors' own. That
`Increment` at 255 raises none is in IncrementAddsOneToTheCell. -/
def Obligations.ConditionCodesFollowTheTable : Prop :=
  conditionCode .invalidInstructionChar = 1 ∧ conditionCode .programTooLarge = 2 ∧
  conditionCode .dataPointerOutOfRange = 3 ∧ conditionCode .invariantViolation = 4 ∧
  (∀ ch j, conditionCode (loadCondition (.invalidInstructionChar ch j)) = 1) ∧
  ∀ n, conditionCode (loadCondition (.programTooLarge n)) = 2

/-- 60_exceptions.md section 5, the codec ports (D5): each is the codec's function on codes. The decode port gives a
byte's four fields in order; the encode port, at each count 0 to 4, is `encode_group` of the first count codes, whose
other slots are `00`, and above 4 it is refused (40_codec.md section 3; D8); the character ports are `char_of` and
`instruction_of`, with the error where a byte is no character of the alphabet. -/
def Obligations.CodecPortsCarryTheCodes : Prop :=
  (∀ (b : Byte) (k : Fin 4), (decodeBytePort b)[k] = b.extractLsb' (6 - 2 * k.val) 2) ∧
  (∀ (cs : Vector Code slots) (n : Nat), n ≤ 4 → ∃ b : Byte, encodeGroupPort cs n = some b ∧
    Codec.encodeGroup ((cs.toList.take n).map Codec.instr) = .ok b ∧
    ∀ k : Fin 4, b.extractLsb' (6 - 2 * k.val) 2 = if k.val < n then cs[k] else 0b00#2) ∧
  (∀ (cs : Vector Code slots) (n : Nat), 4 < n → encodeGroupPort cs n = none) ∧
  (∀ c : Code, charOfPort c = Codec.charOf (Codec.instr c)) ∧
  (∀ (ch : Byte) (c : Code), instructionOfPort ch = some c ↔ Codec.instructionOf ch = .ok (Codec.instr c)) ∧
  (∀ ch : Byte, instructionOfPort ch = none ↔ Codec.instructionOf ch = .error (.invalidInstructionChar ch)) ∧
  ∀ (ch : Byte) (c : Code), instructionOfPort ch = some c ↔ ch = charOfPort c

/-- 70_reset_and_hazards.md section 3 (D12): the read-out is given at HALTED and FAULTED, and is the memory, the five
registers and `run_state`; and a halted state that meets the invariant stands at (256, 0). That nothing is given while
RUNNING is the model's choice (log 14). -/
def Obligations.ReadOutShowsTheFinalState : Prop :=
  (∀ s : State, (readOut s).isSome = true ↔ s.runState ≠ .running) ∧
  (∀ (s : State) (r : ReadOut), readOut s = some r →
    (∀ a : Addr, r.image[a.toNat]'a.isLt = s.readByte a) ∧ r.dp = s.dp ∧ r.ipl = s.ipl ∧ r.iph = s.iph ∧
      r.rpl = s.rpl ∧ r.rph = s.rph ∧ r.runState = s.runState) ∧
  ∀ s : State, s.Inv → s.runState = .halted → s.ip = ⟨256#9, 0#2⟩

/-! ### Decoding is right -/

/-- A few words written out from 30_encoding.md section 5: the four table words, and slots of packed bytes. -/
def Obligations.DecoderReadsTheTableWords : Prop :=
  decodeTableWord 8 0b00 = some .loopOpen ∧ decodeTableWord 8 0b01 = some .loopClose ∧
  decodeTableWord 8 0b10 = some .increment ∧ decodeTableWord 8 0b11 = some .shiftRight ∧
  Codec.slotInstr 0b10000001#8 0#2 = .increment ∧ Codec.slotInstr 0b10000001#8 3#2 = .loopClose ∧
  Codec.slotInstr 0b00011011#8 1#2 = .loopClose ∧ Codec.slotInstr 0b00011011#8 2#2 = .increment
end

