-- ==== Sys2Proof/Laws/Codec.lean ====
section
/-! SUPPORT. The codec: codes and instructions are inverse, and a code placed in a slot is read back from it. -/
namespace Sys2Proof.Codec

@[simp] theorem code_instr (c : Code) : code (instr c) = c := by
  revert c
  decide

theorem slot_cases (h : Slot) : h = 0#2 ∨ h = 1#2 ∨ h = 2#2 ∨ h = 3#2 := by
  revert h
  decide

/-- Slot `h` of a byte decodes the field `b[7-2h : 6-2h]` (30_encoding.md R62). -/
theorem slotInstr_eq (b : Byte) (h : Slot) : slotInstr b h = instr (b.extractLsb' (6 - 2 * h.toNat) 2) := by
  rcases slot_cases h with rfl | rfl | rfl | rfl <;> rfl

/-- A code placed in a slot is read back from that slot. -/
theorem extract_placeSlot_same (b : Byte) (h : Slot) (c : Code) :
    (placeSlot b h c).extractLsb' (6 - 2 * h.toNat) 2 = c := by
  apply BitVec.eq_of_getLsbD_eq
  intro j hj
  rcases (by omega : j = 0 ∨ j = 1) with rfl | rfl <;>
    rcases slot_cases h with rfl | rfl | rfl | rfl <;>
      simp [placeSlot, slotBits]

/-- Placing a code in a slot leaves the other slots alone. -/
theorem extract_placeSlot_other (b : Byte) (h k : Slot) (c : Code) (hk : k ≠ h) :
    (placeSlot b h c).extractLsb' (6 - 2 * k.toNat) 2 = b.extractLsb' (6 - 2 * k.toNat) 2 := by
  apply BitVec.eq_of_getLsbD_eq
  intro j hj
  rcases (by omega : j = 0 ∨ j = 1) with rfl | rfl <;>
    rcases slot_cases h with rfl | rfl | rfl | rfl <;>
      rcases slot_cases k with rfl | rfl | rfl | rfl <;>
        first
        | exact absurd rfl hk
        | simp [placeSlot, slotBits]

theorem slotInstr_placeSlot_same (b : Byte) (h : Slot) (c : Code) : slotInstr (placeSlot b h c) h = instr c := by
  rw [slotInstr_eq, extract_placeSlot_same]

theorem slotInstr_placeSlot_other (b : Byte) (h k : Slot) (c : Code) (hk : k ≠ h) :
    slotInstr (placeSlot b h c) k = slotInstr b k := by
  rw [slotInstr_eq, slotInstr_eq, extract_placeSlot_other b h k c hk]

end Sys2Proof.Codec

namespace Sys2Proof

/-- The table's word is decoded by its two low bits. -/
theorem decodeTableWord_eq (nbits w : Nat) : decodeTableWord nbits w = some (decode (BitVec.ofNat 2 w)) := by
  unfold decodeTableWord decode
  rw [Codec.slotInstr_placeSlot_same]

end Sys2Proof
end

