-- ==== Sys2Proof/Laws/State.lean ====
section
/-! SUPPORT. One lemma per field per update of State, true by rfl, so that no proof unfolds a record update. -/
namespace Sys2Proof.Machine

/-! ### The position accessors -/

@[simp] theorem State.ip_l (s : State) : s.ip.l = s.ipl := rfl
@[simp] theorem State.ip_h (s : State) : s.ip.h = s.iph := rfl
@[simp] theorem State.rp_l (s : State) : s.rp.l = s.rpl := rfl
@[simp] theorem State.rp_h (s : State) : s.rp.h = s.rph := rfl

/-! ### setIp -/

@[simp] theorem State.setIp_mem (s : State) (p : Pos) : (s.setIp p).mem = s.mem := rfl
@[simp] theorem State.setIp_dp (s : State) (p : Pos) : (s.setIp p).dp = s.dp := rfl
@[simp] theorem State.setIp_ipl (s : State) (p : Pos) : (s.setIp p).ipl = p.l := rfl
@[simp] theorem State.setIp_iph (s : State) (p : Pos) : (s.setIp p).iph = p.h := rfl
@[simp] theorem State.setIp_rpl (s : State) (p : Pos) : (s.setIp p).rpl = s.rpl := rfl
@[simp] theorem State.setIp_rph (s : State) (p : Pos) : (s.setIp p).rph = s.rph := rfl
@[simp] theorem State.setIp_runState (s : State) (p : Pos) : (s.setIp p).runState = s.runState := rfl
@[simp] theorem State.setIp_traceWait (s : State) (p : Pos) : (s.setIp p).traceWait = s.traceWait := rfl
@[simp] theorem State.setIp_config (s : State) (p : Pos) : (s.setIp p).config = s.config := rfl
@[simp] theorem State.setIp_continueIn (s : State) (p : Pos) : (s.setIp p).continueIn = s.continueIn := rfl
@[simp] theorem State.setIp_ip (s : State) (p : Pos) : (s.setIp p).ip = p := rfl
@[simp] theorem State.setIp_rp (s : State) (p : Pos) : (s.setIp p).rp = s.rp := rfl
@[simp] theorem State.setIp_readByte (s : State) (p : Pos) (a : Addr) : (s.setIp p).readByte a = s.readByte a := rfl

/-! ### setRp -/

@[simp] theorem State.setRp_mem (s : State) (p : Pos) : (s.setRp p).mem = s.mem := rfl
@[simp] theorem State.setRp_dp (s : State) (p : Pos) : (s.setRp p).dp = s.dp := rfl
@[simp] theorem State.setRp_ipl (s : State) (p : Pos) : (s.setRp p).ipl = s.ipl := rfl
@[simp] theorem State.setRp_iph (s : State) (p : Pos) : (s.setRp p).iph = s.iph := rfl
@[simp] theorem State.setRp_rpl (s : State) (p : Pos) : (s.setRp p).rpl = p.l := rfl
@[simp] theorem State.setRp_rph (s : State) (p : Pos) : (s.setRp p).rph = p.h := rfl
@[simp] theorem State.setRp_runState (s : State) (p : Pos) : (s.setRp p).runState = s.runState := rfl
@[simp] theorem State.setRp_traceWait (s : State) (p : Pos) : (s.setRp p).traceWait = s.traceWait := rfl
@[simp] theorem State.setRp_config (s : State) (p : Pos) : (s.setRp p).config = s.config := rfl
@[simp] theorem State.setRp_continueIn (s : State) (p : Pos) : (s.setRp p).continueIn = s.continueIn := rfl
@[simp] theorem State.setRp_ip (s : State) (p : Pos) : (s.setRp p).ip = s.ip := rfl
@[simp] theorem State.setRp_rp (s : State) (p : Pos) : (s.setRp p).rp = p := rfl
@[simp] theorem State.setRp_readByte (s : State) (p : Pos) (a : Addr) : (s.setRp p).readByte a = s.readByte a := rfl

/-! ### setDp -/

@[simp] theorem State.setDp_mem (s : State) (v : Addr) : (s.setDp v).mem = s.mem := rfl
@[simp] theorem State.setDp_dp (s : State) (v : Addr) : (s.setDp v).dp = v := rfl
@[simp] theorem State.setDp_ipl (s : State) (v : Addr) : (s.setDp v).ipl = s.ipl := rfl
@[simp] theorem State.setDp_iph (s : State) (v : Addr) : (s.setDp v).iph = s.iph := rfl
@[simp] theorem State.setDp_rpl (s : State) (v : Addr) : (s.setDp v).rpl = s.rpl := rfl
@[simp] theorem State.setDp_rph (s : State) (v : Addr) : (s.setDp v).rph = s.rph := rfl
@[simp] theorem State.setDp_runState (s : State) (v : Addr) : (s.setDp v).runState = s.runState := rfl
@[simp] theorem State.setDp_traceWait (s : State) (v : Addr) : (s.setDp v).traceWait = s.traceWait := rfl
@[simp] theorem State.setDp_config (s : State) (v : Addr) : (s.setDp v).config = s.config := rfl
@[simp] theorem State.setDp_continueIn (s : State) (v : Addr) : (s.setDp v).continueIn = s.continueIn := rfl
@[simp] theorem State.setDp_ip (s : State) (v : Addr) : (s.setDp v).ip = s.ip := rfl
@[simp] theorem State.setDp_rp (s : State) (v : Addr) : (s.setDp v).rp = s.rp := rfl
@[simp] theorem State.setDp_readByte (s : State) (v : Addr) (a : Addr) : (s.setDp v).readByte a = s.readByte a := rfl

/-! ### writeByte -/

@[simp] theorem State.writeByte_mem (s : State) (a : Addr) (v : Byte) : (s.writeByte a v).mem = Memory.write s.mem a.toNat v := rfl
@[simp] theorem State.writeByte_dp (s : State) (a : Addr) (v : Byte) : (s.writeByte a v).dp = s.dp := rfl
@[simp] theorem State.writeByte_ipl (s : State) (a : Addr) (v : Byte) : (s.writeByte a v).ipl = s.ipl := rfl
@[simp] theorem State.writeByte_iph (s : State) (a : Addr) (v : Byte) : (s.writeByte a v).iph = s.iph := rfl
@[simp] theorem State.writeByte_rpl (s : State) (a : Addr) (v : Byte) : (s.writeByte a v).rpl = s.rpl := rfl
@[simp] theorem State.writeByte_rph (s : State) (a : Addr) (v : Byte) : (s.writeByte a v).rph = s.rph := rfl
@[simp] theorem State.writeByte_runState (s : State) (a : Addr) (v : Byte) : (s.writeByte a v).runState = s.runState := rfl
@[simp] theorem State.writeByte_traceWait (s : State) (a : Addr) (v : Byte) : (s.writeByte a v).traceWait = s.traceWait := rfl
@[simp] theorem State.writeByte_config (s : State) (a : Addr) (v : Byte) : (s.writeByte a v).config = s.config := rfl
@[simp] theorem State.writeByte_continueIn (s : State) (a : Addr) (v : Byte) : (s.writeByte a v).continueIn = s.continueIn := rfl
@[simp] theorem State.writeByte_ip (s : State) (a : Addr) (v : Byte) : (s.writeByte a v).ip = s.ip := rfl
@[simp] theorem State.writeByte_rp (s : State) (a : Addr) (v : Byte) : (s.writeByte a v).rp = s.rp := rfl

/-! ### setDataCell -/

@[simp] theorem State.setDataCell_mem (s : State) (v : Byte) : (s.setDataCell v).mem = Memory.write s.mem s.dp.toNat v := rfl
@[simp] theorem State.setDataCell_dp (s : State) (v : Byte) : (s.setDataCell v).dp = s.dp := rfl
@[simp] theorem State.setDataCell_ipl (s : State) (v : Byte) : (s.setDataCell v).ipl = s.ipl := rfl
@[simp] theorem State.setDataCell_iph (s : State) (v : Byte) : (s.setDataCell v).iph = s.iph := rfl
@[simp] theorem State.setDataCell_rpl (s : State) (v : Byte) : (s.setDataCell v).rpl = s.rpl := rfl
@[simp] theorem State.setDataCell_rph (s : State) (v : Byte) : (s.setDataCell v).rph = s.rph := rfl
@[simp] theorem State.setDataCell_runState (s : State) (v : Byte) : (s.setDataCell v).runState = s.runState := rfl
@[simp] theorem State.setDataCell_traceWait (s : State) (v : Byte) : (s.setDataCell v).traceWait = s.traceWait := rfl
@[simp] theorem State.setDataCell_config (s : State) (v : Byte) : (s.setDataCell v).config = s.config := rfl
@[simp] theorem State.setDataCell_continueIn (s : State) (v : Byte) : (s.setDataCell v).continueIn = s.continueIn := rfl
@[simp] theorem State.setDataCell_ip (s : State) (v : Byte) : (s.setDataCell v).ip = s.ip := rfl
@[simp] theorem State.setDataCell_rp (s : State) (v : Byte) : (s.setDataCell v).rp = s.rp := rfl

/-! ### advance -/

@[simp] theorem State.advance_mem (s : State) : (s.advance).mem = s.mem := rfl
@[simp] theorem State.advance_dp (s : State) : (s.advance).dp = s.dp := rfl
@[simp] theorem State.advance_ipl (s : State) : (s.advance).ipl = (posSucc s.ip).l := rfl
@[simp] theorem State.advance_iph (s : State) : (s.advance).iph = (posSucc s.ip).h := rfl
@[simp] theorem State.advance_rpl (s : State) : (s.advance).rpl = s.rpl := rfl
@[simp] theorem State.advance_rph (s : State) : (s.advance).rph = s.rph := rfl
@[simp] theorem State.advance_runState (s : State) : (s.advance).runState = s.runState := rfl
@[simp] theorem State.advance_traceWait (s : State) : (s.advance).traceWait = s.traceWait := rfl
@[simp] theorem State.advance_config (s : State) : (s.advance).config = s.config := rfl
@[simp] theorem State.advance_continueIn (s : State) : (s.advance).continueIn = s.continueIn := rfl
@[simp] theorem State.advance_ip (s : State) : (s.advance).ip = posSucc s.ip := rfl
@[simp] theorem State.advance_rp (s : State) : (s.advance).rp = s.rp := rfl
@[simp] theorem State.advance_readByte (s : State) (a : Addr) : (s.advance).readByte a = s.readByte a := rfl

/-! ### halt -/

@[simp] theorem State.halt_mem (s : State) : (s.halt).mem = s.mem := rfl
@[simp] theorem State.halt_dp (s : State) : (s.halt).dp = s.dp := rfl
@[simp] theorem State.halt_ipl (s : State) : (s.halt).ipl = s.ipl := rfl
@[simp] theorem State.halt_iph (s : State) : (s.halt).iph = s.iph := rfl
@[simp] theorem State.halt_rpl (s : State) : (s.halt).rpl = s.rpl := rfl
@[simp] theorem State.halt_rph (s : State) : (s.halt).rph = s.rph := rfl
@[simp] theorem State.halt_runState (s : State) : (s.halt).runState = .halted := rfl
@[simp] theorem State.halt_traceWait (s : State) : (s.halt).traceWait = s.traceWait := rfl
@[simp] theorem State.halt_config (s : State) : (s.halt).config = s.config := rfl
@[simp] theorem State.halt_continueIn (s : State) : (s.halt).continueIn = s.continueIn := rfl
@[simp] theorem State.halt_ip (s : State) : (s.halt).ip = s.ip := rfl
@[simp] theorem State.halt_rp (s : State) : (s.halt).rp = s.rp := rfl
@[simp] theorem State.halt_readByte (s : State) (a : Addr) : (s.halt).readByte a = s.readByte a := rfl

/-! ### raiseFault -/

@[simp] theorem raiseFault_mem (c : Condition) (s : State) : (raiseFault c s).mem = s.mem := rfl
@[simp] theorem raiseFault_dp (c : Condition) (s : State) : (raiseFault c s).dp = s.dp := rfl
@[simp] theorem raiseFault_ipl (c : Condition) (s : State) : (raiseFault c s).ipl = s.ipl := rfl
@[simp] theorem raiseFault_iph (c : Condition) (s : State) : (raiseFault c s).iph = s.iph := rfl
@[simp] theorem raiseFault_rpl (c : Condition) (s : State) : (raiseFault c s).rpl = s.rpl := rfl
@[simp] theorem raiseFault_rph (c : Condition) (s : State) : (raiseFault c s).rph = s.rph := rfl
@[simp] theorem raiseFault_runState (c : Condition) (s : State) : (raiseFault c s).runState = .faulted c s.ipl s.iph := rfl
@[simp] theorem raiseFault_traceWait (c : Condition) (s : State) : (raiseFault c s).traceWait = s.traceWait := rfl
@[simp] theorem raiseFault_config (c : Condition) (s : State) : (raiseFault c s).config = s.config := rfl
@[simp] theorem raiseFault_continueIn (c : Condition) (s : State) : (raiseFault c s).continueIn = s.continueIn := rfl
@[simp] theorem raiseFault_ip (c : Condition) (s : State) : (raiseFault c s).ip = s.ip := rfl
@[simp] theorem raiseFault_rp (c : Condition) (s : State) : (raiseFault c s).rp = s.rp := rfl
@[simp] theorem raiseFault_readByte (c : Condition) (s : State) (a : Addr) : (raiseFault c s).readByte a = s.readByte a := rfl

/-! ### wait -/

@[simp] theorem State.wait_mem (s : State) : (s.wait).mem = s.mem := rfl
@[simp] theorem State.wait_dp (s : State) : (s.wait).dp = s.dp := rfl
@[simp] theorem State.wait_ipl (s : State) : (s.wait).ipl = s.ipl := rfl
@[simp] theorem State.wait_iph (s : State) : (s.wait).iph = s.iph := rfl
@[simp] theorem State.wait_rpl (s : State) : (s.wait).rpl = s.rpl := rfl
@[simp] theorem State.wait_rph (s : State) : (s.wait).rph = s.rph := rfl
@[simp] theorem State.wait_runState (s : State) : (s.wait).runState = s.runState := rfl
@[simp] theorem State.wait_traceWait (s : State) : (s.wait).traceWait = true := rfl
@[simp] theorem State.wait_config (s : State) : (s.wait).config = s.config := rfl
@[simp] theorem State.wait_continueIn (s : State) : (s.wait).continueIn = s.continueIn := rfl
@[simp] theorem State.wait_ip (s : State) : (s.wait).ip = s.ip := rfl
@[simp] theorem State.wait_rp (s : State) : (s.wait).rp = s.rp := rfl
@[simp] theorem State.wait_readByte (s : State) (a : Addr) : (s.wait).readByte a = s.readByte a := rfl

/-! ### signalContinue -/

@[simp] theorem State.signalContinue_mem (s : State) (b : Byte) : (s.signalContinue b).mem = s.mem := rfl
@[simp] theorem State.signalContinue_dp (s : State) (b : Byte) : (s.signalContinue b).dp = s.dp := rfl
@[simp] theorem State.signalContinue_ipl (s : State) (b : Byte) : (s.signalContinue b).ipl = s.ipl := rfl
@[simp] theorem State.signalContinue_iph (s : State) (b : Byte) : (s.signalContinue b).iph = s.iph := rfl
@[simp] theorem State.signalContinue_rpl (s : State) (b : Byte) : (s.signalContinue b).rpl = s.rpl := rfl
@[simp] theorem State.signalContinue_rph (s : State) (b : Byte) : (s.signalContinue b).rph = s.rph := rfl
@[simp] theorem State.signalContinue_runState (s : State) (b : Byte) : (s.signalContinue b).runState = s.runState := rfl
@[simp] theorem State.signalContinue_traceWait (s : State) (b : Byte) : (s.signalContinue b).traceWait = s.traceWait := rfl
@[simp] theorem State.signalContinue_config (s : State) (b : Byte) : (s.signalContinue b).config = s.config := rfl
@[simp] theorem State.signalContinue_continueIn (s : State) (b : Byte) : (s.signalContinue b).continueIn = s.continueIn ++ [b] := rfl
@[simp] theorem State.signalContinue_ip (s : State) (b : Byte) : (s.signalContinue b).ip = s.ip := rfl
@[simp] theorem State.signalContinue_rp (s : State) (b : Byte) : (s.signalContinue b).rp = s.rp := rfl
@[simp] theorem State.signalContinue_readByte (s : State) (b : Byte) (a : Addr) : (s.signalContinue b).readByte a = s.readByte a := rfl

/-! ### withTrace -/

@[simp] theorem State.withTrace_mem (s : State) (m : TraceMode) : (s.withTrace m).mem = s.mem := rfl
@[simp] theorem State.withTrace_dp (s : State) (m : TraceMode) : (s.withTrace m).dp = s.dp := rfl
@[simp] theorem State.withTrace_ipl (s : State) (m : TraceMode) : (s.withTrace m).ipl = s.ipl := rfl
@[simp] theorem State.withTrace_iph (s : State) (m : TraceMode) : (s.withTrace m).iph = s.iph := rfl
@[simp] theorem State.withTrace_rpl (s : State) (m : TraceMode) : (s.withTrace m).rpl = s.rpl := rfl
@[simp] theorem State.withTrace_rph (s : State) (m : TraceMode) : (s.withTrace m).rph = s.rph := rfl
@[simp] theorem State.withTrace_runState (s : State) (m : TraceMode) : (s.withTrace m).runState = s.runState := rfl
@[simp] theorem State.withTrace_traceWait (s : State) (m : TraceMode) : (s.withTrace m).traceWait = s.traceWait := rfl
@[simp] theorem State.withTrace_config (s : State) (m : TraceMode) : (s.withTrace m).config = { s.config with trace := m } := rfl
@[simp] theorem State.withTrace_continueIn (s : State) (m : TraceMode) : (s.withTrace m).continueIn = s.continueIn := rfl
@[simp] theorem State.withTrace_ip (s : State) (m : TraceMode) : (s.withTrace m).ip = s.ip := rfl
@[simp] theorem State.withTrace_rp (s : State) (m : TraceMode) : (s.withTrace m).rp = s.rp := rfl
@[simp] theorem State.withTrace_readByte (s : State) (m : TraceMode) (a : Addr) : (s.withTrace m).readByte a = s.readByte a := rfl

/-! ### withSignals -/

@[simp] theorem State.withSignals_mem (s : State) (l : List Byte) : (s.withSignals l).mem = s.mem := rfl
@[simp] theorem State.withSignals_dp (s : State) (l : List Byte) : (s.withSignals l).dp = s.dp := rfl
@[simp] theorem State.withSignals_ipl (s : State) (l : List Byte) : (s.withSignals l).ipl = s.ipl := rfl
@[simp] theorem State.withSignals_iph (s : State) (l : List Byte) : (s.withSignals l).iph = s.iph := rfl
@[simp] theorem State.withSignals_rpl (s : State) (l : List Byte) : (s.withSignals l).rpl = s.rpl := rfl
@[simp] theorem State.withSignals_rph (s : State) (l : List Byte) : (s.withSignals l).rph = s.rph := rfl
@[simp] theorem State.withSignals_runState (s : State) (l : List Byte) : (s.withSignals l).runState = s.runState := rfl
@[simp] theorem State.withSignals_traceWait (s : State) (l : List Byte) : (s.withSignals l).traceWait = s.traceWait := rfl
@[simp] theorem State.withSignals_config (s : State) (l : List Byte) : (s.withSignals l).config = s.config := rfl
@[simp] theorem State.withSignals_continueIn (s : State) (l : List Byte) : (s.withSignals l).continueIn = l := rfl
@[simp] theorem State.withSignals_ip (s : State) (l : List Byte) : (s.withSignals l).ip = s.ip := rfl
@[simp] theorem State.withSignals_rp (s : State) (l : List Byte) : (s.withSignals l).rp = s.rp := rfl
@[simp] theorem State.withSignals_readByte (s : State) (l : List Byte) (a : Addr) : (s.withSignals l).readByte a = s.readByte a := rfl

end Sys2Proof.Machine
end

