-- ==== Sys2Proof/Laws/Memory.lean ====
section
/-! SUPPORT. Memory: a read after a write, the canonical form is kept by every operation, and an image is read back. -/
namespace Sys2Proof.Machine

theorem Memory.read_insertCell_same (m : Memory) (a : Nat) (v : Byte) (h : ∀ c ∈ m, c.1 ≠ a) :
    Memory.read (Memory.insertCell m a v) a = v := by
  induction m with
  | nil => simp [Memory.insertCell, Memory.read]
  | cons c m ih =>
    obtain ⟨b, w⟩ := c
    have hb : b ≠ a := h (b, w) (by simp)
    by_cases hab : a < b
    · simp [Memory.insertCell, Memory.read, hab]
    · simpa [Memory.insertCell, Memory.read, hab, hb.symm] using ih fun c hc => h c (by simp [hc])

theorem Memory.read_insertCell_other (m : Memory) (a a' : Nat) (v : Byte) (h : a' ≠ a) :
    Memory.read (Memory.insertCell m a v) a' = Memory.read m a' := by
  induction m with
  | nil => simp [Memory.insertCell, Memory.read, h]
  | cons c m ih =>
    obtain ⟨b, w⟩ := c
    by_cases hab : a < b
    · simp [Memory.insertCell, Memory.read, hab, h]
    · simp [Memory.insertCell, Memory.read, hab, ih]

theorem Memory.read_filter_other (m : Memory) (a a' : Nat) (h : a' ≠ a) :
    Memory.read (m.filter fun c => c.1 ≠ a) a' = Memory.read m a' := by
  induction m with
  | nil => rfl
  | cons c m ih =>
    obtain ⟨b, w⟩ := c
    by_cases hb : b = a
    · subst hb
      simpa [Memory.read, h] using ih
    · by_cases hab : a' = b
      · simp [Memory.read, hb, hab]
      · simpa [Memory.read, hb, hab] using ih

theorem Memory.read_of_unlisted (m : Memory) (a : Nat) (h : ∀ c ∈ m, c.1 ≠ a) :
    Memory.read m a = Memory.unlisted := by
  induction m with
  | nil => rfl
  | cons c m ih =>
    obtain ⟨b, w⟩ := c
    have hb : b ≠ a := h (b, w) (by simp)
    simpa [Memory.read, hb.symm] using ih fun c hc => h c (by simp [hc])

/-- A read after a write to the same cell gives the value written. -/
theorem Memory.read_write_same (m : Memory) (a : Nat) (v : Byte) :
    Memory.read (Memory.write m a v) a = v := by
  have hf : ∀ c ∈ m.filter fun c => c.1 ≠ a, c.1 ≠ a := fun c hc => by simpa using (List.mem_filter.mp hc).2
  by_cases hv : v = Memory.unlisted
  · simp only [Memory.write, hv, if_true]
    exact Memory.read_of_unlisted _ a hf
  · simp only [Memory.write, hv, if_false]
    exact Memory.read_insertCell_same _ a v hf

/-- A write leaves every other cell alone (20_memory.md R46). -/
theorem Memory.read_write_other (m : Memory) (a a' : Nat) (v : Byte) (h : a' ≠ a) :
    Memory.read (Memory.write m a v) a' = Memory.read m a' := by
  by_cases hv : v = Memory.unlisted
  · simp only [Memory.write, hv, if_true]
    exact Memory.read_filter_other m a a' h
  · simp only [Memory.write, hv, if_false]
    rw [Memory.read_insertCell_other _ a a' v h, Memory.read_filter_other m a a' h]

theorem Memory.mem_insertCell (m : Memory) (a : Nat) (v : Byte) (c : Host.Cell) :
    c ∈ Memory.insertCell m a v ↔ c = (a, v) ∨ c ∈ m := by
  induction m with
  | nil => simp [Memory.insertCell]
  | cons d m ih =>
    obtain ⟨b, w⟩ := d
    by_cases hab : a < b
    · simp [Memory.insertCell, hab]
    · simp only [Memory.insertCell, hab, if_false, List.mem_cons, ih]
      tauto

theorem Memory.pairwise_insertCell (m : Memory) (a : Nat) (v : Byte)
    (hm : m.Pairwise fun c d => c.1 < d.1) (h : ∀ c ∈ m, c.1 ≠ a) :
    (Memory.insertCell m a v).Pairwise fun c d => c.1 < d.1 := by
  induction m with
  | nil => simp [Memory.insertCell]
  | cons d m ih =>
    obtain ⟨b, w⟩ := d
    rw [List.pairwise_cons] at hm
    have hb : b ≠ a := h (b, w) (by simp)
    by_cases hab : a < b
    · simp only [Memory.insertCell, hab, if_true, List.pairwise_cons]
      refine ⟨fun c hc => ?_, hm⟩
      rcases List.mem_cons.mp hc with rfl | hc
      · exact hab
      · exact lt_trans hab (hm.1 c hc)
    · simp only [Memory.insertCell, hab, if_false, List.pairwise_cons]
      refine ⟨fun c hc => ?_, ih hm.2 fun c hc => h c (by simp [hc])⟩
      rcases (Memory.mem_insertCell m a v c).mp hc with rfl | hc
      · show b < a
        omega
      · exact hm.1 c hc

/-- A write keeps the canonical form. -/
theorem Memory.wf_write (m : Memory) (a : Nat) (v : Byte) (hm : Memory.wf m) (ha : a < memSize) :
    Memory.wf (Memory.write m a v) := by
  have hp := hm.1.filter fun c => c.1 ≠ a
  have hc : ∀ c ∈ m.filter fun c => c.1 ≠ a, c.1 < memSize ∧ c.2 ≠ Memory.unlisted := fun c hc =>
    hm.2 c (List.mem_filter.mp hc).1
  have hf : ∀ c ∈ m.filter fun c => c.1 ≠ a, c.1 ≠ a := fun c hc => by simpa using (List.mem_filter.mp hc).2
  by_cases hv : v = Memory.unlisted
  · simp only [Memory.write, hv, if_true]
    exact ⟨hp, hc⟩
  · simp only [Memory.write, hv, if_false]
    refine ⟨Memory.pairwise_insertCell _ a v hp hf, fun c h => ?_⟩
    rcases (Memory.mem_insertCell _ a v c).mp h with rfl | h
    · exact ⟨ha, hv⟩
    · exact hc c h

/-- The empty list is canonical: it is the memory of 256 zero bytes. -/
theorem Memory.wf_nil : Memory.wf [] := ⟨List.Pairwise.nil, by simp⟩

/-- The cells of an image along any rising list of addresses: canonical, and read back as the image. -/
theorem Memory.wf_ofImage (img : Codec.Image) : Memory.wf (Memory.ofImage img) := by
  constructor
  · refine List.Pairwise.filterMap (R := fun i j : Fin memSize => i < j) _ ?_ (List.pairwise_lt_finRange memSize)
    intro i j hij c hc d hd
    split at hc <;> split at hd <;> simp_all
    subst hc hd
    exact hij
  · intro c hc
    obtain ⟨i, -, hi⟩ := List.mem_filterMap.mp hc
    split at hi
    · simp at hi
    · rename_i hne
      simp only [Option.some.injEq] at hi
      subst hi
      exact ⟨i.isLt, hne⟩

theorem Memory.read_filterMap_image (img : Codec.Image) (l : List (Fin memSize)) (i : Fin memSize) (hi : i ∈ l) :
    Memory.read (l.filterMap fun i => if img[i] = Memory.unlisted then none else some (i.val, img[i])) i.val =
      img[i] := by
  induction l with
  | nil => simp at hi
  | cons j l ih =>
    by_cases hj : img[j] = Memory.unlisted
    · rw [List.filterMap_cons_none (by simp [hj])]
      rcases List.mem_cons.mp hi with rfl | hi
      · by_cases hil : i ∈ l
        · exact ih hil
        · rw [hj]
          refine Memory.read_of_unlisted _ _ fun c hc => ?_
          obtain ⟨k, hk, hkc⟩ := List.mem_filterMap.mp hc
          split at hkc
          · simp at hkc
          · simp only [Option.some.injEq] at hkc
            subst hkc
            intro hik
            exact hil (Fin.ext hik ▸ hk)
      · exact ih hi
    · rw [List.filterMap_cons_some (by simp only [hj, if_false]; rfl)]
      by_cases hij : i = j
      · subst hij
        simp [Memory.read]
      · have hv : i.val ≠ j.val := fun h => hij (Fin.ext h)
        simp only [Memory.read, hv, if_false]
        exact ih ((List.mem_cons.mp hi).resolve_left hij)

/-- An image written to memory is read back byte by byte (70_reset_and_hazards.md R163). -/
theorem Memory.read_ofImage (img : Codec.Image) (i : Fin memSize) :
    Memory.read (Memory.ofImage img) i.val = img[i] :=
  Memory.read_filterMap_image img _ i (List.mem_finRange i)

/-- The read-out image is the memory read address by address (70_reset_and_hazards.md R165). -/
theorem Memory.getElem_toImage (m : Memory) (i : Nat) (h : i < memSize) : m.toImage[i] = m.read i := by
  unfold Memory.toImage
  exact Vector.getElem_ofFn h

/-! ### On states -/

@[simp] theorem State.readByte_writeByte_same (s : State) (a : Addr) (v : Byte) :
    (s.writeByte a v).readByte a = v := Memory.read_write_same _ _ _

theorem State.readByte_writeByte_other (s : State) (a b : Addr) (v : Byte) (h : b ≠ a) :
    (s.writeByte a v).readByte b = s.readByte b :=
  Memory.read_write_other _ _ _ _ fun hab => h (BitVec.eq_of_toNat_eq hab)

/-- What any cell reads as after a write. -/
theorem State.readByte_writeByte (s : State) (a b : Addr) (v : Byte) :
    (s.writeByte a v).readByte b = if b = a then v else s.readByte b := by
  by_cases h : b = a
  · subst h; simp
  · simp [h, State.readByte_writeByte_other s a b v h]

/-- What any cell reads as after `mem[dp] <- v`. -/
theorem State.readByte_setDataCell (s : State) (b : Addr) (v : Byte) :
    (s.setDataCell v).readByte b = if b = s.dp then v else s.readByte b :=
  State.readByte_writeByte s s.dp b v

/-- A write to a state's memory keeps the canonical form. -/
theorem State.wf_writeByte (s : State) (a : Addr) (v : Byte) (h : Memory.wf s.mem) :
    Memory.wf (s.writeByte a v).mem := Memory.wf_write _ _ _ h a.isLt

theorem State.wf_setDataCell (s : State) (v : Byte) (h : Memory.wf s.mem) :
    Memory.wf (s.setDataCell v).mem := Memory.wf_write _ _ _ h s.dp.isLt

/-- The memory a load writes is canonical. -/
theorem start_wf (cfg : Config) (img : Codec.Image) : Memory.wf (start cfg img).mem := Memory.wf_ofImage img

/-- A load's memory reads as its image. -/
theorem start_readByte (cfg : Config) (img : Codec.Image) (a : Addr) :
    (start cfg img).readByte a = img[a.toNat]'a.isLt := Memory.read_ofImage img ⟨a.toNat, a.isLt⟩

/-- Everything a load that succeeds can do: the text decodes, the program packs, and the state is that image started
(70_reset_and_hazards.md R163). -/
theorem load_cases {cfg : Config} {text : List Byte} {st : State} (h : load cfg text = .ok st) :
    ∃ s img, Codec.decodeProgram text = .ok s ∧ Codec.pack s = .ok img ∧ st = start cfg img := by
  unfold load at h
  cases hd : Codec.decodeProgram text with
  | error e => simp [hd] at h
  | ok s =>
    cases hp : Codec.pack s with
    | error e => simp [hd, hp] at h
    | ok img => exact ⟨s, img, rfl, hp, by simpa [hd, hp] using h.symm⟩

/-- A text that decodes to a program that packs loads as that image started. -/
theorem load_of_ok (cfg : Config) {text : List Byte} {s : List Instr} {img : Codec.Image}
    (hd : Codec.decodeProgram text = .ok s) (hp : Codec.pack s = .ok img) : load cfg text = .ok (start cfg img) := by
  simp [load, hd, hp]

end Sys2Proof.Machine
end

