-- ==== Sys2Proof/Laws/PerInstr.lean ====
section
/-! SUPPORT. Statements made of every instruction, one lemma per constructor. -/
namespace Sys2Proof.Laws.Encoding

/-- An instruction is well formed, its word decodes to it, and its character stands for it
(30_encoding.md R60; 40_codec.md R90). -/
def Statement (i : Instr) : Prop :=
  i.wf = true ∧ decode (encode i) = i ∧ Codec.instructionOf (Codec.charOf i) = .ok i

theorem loopOpen : Statement .loopOpen := by unfold Statement; decide
theorem loopClose : Statement .loopClose := by unfold Statement; decide
theorem increment : Statement .increment := by unfold Statement; decide
theorem shiftRight : Statement .shiftRight := by unfold Statement; decide

end Sys2Proof.Laws.Encoding
end

