-- ==== Sys2Proof/Laws/Step.lean ====
section
/-! SUPPORT. What each phase, each instruction and one step can do, said once. -/
namespace Sys2Proof.Machine

/-! ### The observe phase -/

/-- Under a trace that does not block, the observe phase changes nothing. -/
theorem State.passObserver_of_not_blocking (s : State) (h : s.config.trace ≠ .blocking) :
    s.passObserver = some s := by
  unfold State.passObserver
  cases ht : s.config.trace <;> simp_all

/-- A blocking step that goes on takes exactly the oldest continue signal. -/
theorem State.passObserver_blocking_cons (s : State) (b : Byte) (l : List Byte) (h : s.config.trace = .blocking)
    (hl : s.continueIn = b :: l) : s.passObserver = some { s with traceWait := false, continueIn := l } := by
  simp [State.passObserver, h, hl]

/-- A blocking step with no signal cannot go on. -/
theorem State.passObserver_blocking_nil (s : State) (h : s.config.trace = .blocking) (hl : s.continueIn = []) :
    s.passObserver = none := by
  simp [State.passObserver, h, hl]

/-- Everything the observe phase can do: nothing, or take one continue signal. -/
theorem State.passObserver_cases {s t : State} (h : s.passObserver = some t) :
    (s.config.trace ≠ .blocking ∧ t = s) ∨
      (s.config.trace = .blocking ∧ ∃ b l, s.continueIn = b :: l ∧
        t = { s with traceWait := false, continueIn := l }) := by
  by_cases ht : s.config.trace = .blocking
  · cases hl : s.continueIn with
    | nil => simp [State.passObserver_blocking_nil s ht hl] at h
    | cons b l =>
      rw [State.passObserver_blocking_cons s b l ht hl] at h
      exact .inr ⟨ht, b, l, rfl, (Option.some.inj h).symm⟩
  · rw [State.passObserver_of_not_blocking s ht] at h
    exact .inl ⟨ht, (Option.some.inj h).symm⟩

/-- The observe phase fails only by waiting for a signal. -/
theorem State.passObserver_eq_none {s : State} :
    s.passObserver = none ↔ s.config.trace = .blocking ∧ s.continueIn = [] := by
  constructor
  · intro h
    by_cases ht : s.config.trace = .blocking
    · cases hl : s.continueIn with
      | nil => exact ⟨ht, rfl⟩
      | cons b l => simp [State.passObserver_blocking_cons s b l ht hl] at h
    · simp [State.passObserver_of_not_blocking s ht] at h
  · rintro ⟨ht, hl⟩
    exact State.passObserver_blocking_nil s ht hl

/-- The observe phase touches the trace wait and the pending signals only. -/
theorem State.observed_frame (s : State) :
    s.observed.mem = s.mem ∧ s.observed.dp = s.dp ∧ s.observed.ip = s.ip ∧ s.observed.rp = s.rp ∧
      s.observed.runState = s.runState ∧ s.observed.config = s.config := by
  unfold State.observed
  cases h : s.passObserver with
  | none => simp
  | some t =>
    obtain ⟨-, rfl⟩ | ⟨-, b, l, -, rfl⟩ := State.passObserver_cases h <;> exact ⟨rfl, rfl, rfl, rfl, rfl, rfl⟩

@[simp] theorem State.observed_mem (s : State) : s.observed.mem = s.mem := s.observed_frame.1
@[simp] theorem State.observed_dp (s : State) : s.observed.dp = s.dp := s.observed_frame.2.1
@[simp] theorem State.observed_ip (s : State) : s.observed.ip = s.ip := s.observed_frame.2.2.1
@[simp] theorem State.observed_rp (s : State) : s.observed.rp = s.rp := s.observed_frame.2.2.2.1
@[simp] theorem State.observed_runState (s : State) : s.observed.runState = s.runState :=
  s.observed_frame.2.2.2.2.1
@[simp] theorem State.observed_config (s : State) : s.observed.config = s.config := s.observed_frame.2.2.2.2.2
@[simp] theorem State.observed_ipl (s : State) : s.observed.ipl = s.ipl := congrArg Pos.l s.observed_ip
@[simp] theorem State.observed_iph (s : State) : s.observed.iph = s.iph := congrArg Pos.h s.observed_ip
@[simp] theorem State.observed_rpl (s : State) : s.observed.rpl = s.rpl := congrArg Pos.l s.observed_rp
@[simp] theorem State.observed_rph (s : State) : s.observed.rph = s.rph := congrArg Pos.h s.observed_rp

@[simp] theorem State.observed_readByte (s : State) (a : Addr) : s.observed.readByte a = s.readByte a := by
  simp [State.readByte]

@[simp] theorem State.observed_dataCell (s : State) : s.observed.dataCell = s.dataCell := by
  simp [State.dataCell]

@[simp] theorem State.observed_loopCondition (s : State) : s.observed.loopCondition = s.loopCondition := by
  simp [State.loopCondition]

/-! ### The four instructions -/

theorem exec_loopOpen (s : State) : exec .loopOpen s = .next (s.setRp (posSucc s.ip)).advance := rfl

theorem exec_loopClose_taken (s : State) (h : s.loopCondition = true) :
    exec .loopClose s = .next (s.setIp s.rp) := by simp [exec, execLoopClose, h]

theorem exec_loopClose_not_taken (s : State) (h : s.loopCondition = false) :
    exec .loopClose s = .next s.advance := by simp [exec, execLoopClose, h]

theorem exec_increment (s : State) : exec .increment s = .next (s.setDataCell (s.dataCell + 1#8)).advance := rfl

theorem exec_shiftRight_of_ne (s : State) (h : s.dp ≠ 255#8) :
    exec .shiftRight s = .next (s.setDp (s.dp + 1#8)).advance := by simp [exec, execShiftRight, h]

theorem exec_shiftRight_fault (s : State) (h : s.dp = 255#8) (hc : s.config.dpOverflow = .fault) :
    exec .shiftRight s = .next (raiseFault .dataPointerOutOfRange s) := by simp [exec, execShiftRight, h, hc]

theorem exec_shiftRight_wrap (s : State) (h : s.dp = 255#8) (hc : s.config.dpOverflow = .wrap) :
    exec .shiftRight s = .next (s.setDp 0#8).advance := by simp [exec, execShiftRight, h, hc]

/-- Everything an instruction can do. -/
theorem exec_cases {i : Instr} {s t : State} (h : exec i s = .next t) :
    (i = .loopOpen ∧ t = (s.setRp (posSucc s.ip)).advance) ∨
      (i = .loopClose ∧ s.loopCondition = true ∧ t = s.setIp s.rp) ∨
      (i = .loopClose ∧ s.loopCondition = false ∧ t = s.advance) ∨
      (i = .increment ∧ t = (s.setDataCell (s.dataCell + 1#8)).advance) ∨
      (i = .shiftRight ∧ s.dp ≠ 255#8 ∧ t = (s.setDp (s.dp + 1#8)).advance) ∨
      (i = .shiftRight ∧ s.dp = 255#8 ∧ s.config.dpOverflow = .wrap ∧ t = (s.setDp 0#8).advance) ∨
      (i = .shiftRight ∧ s.dp = 255#8 ∧ s.config.dpOverflow = .fault ∧
        t = raiseFault .dataPointerOutOfRange s) := by
  cases i with
  | loopOpen =>
    rw [exec_loopOpen] at h
    cases h
    simp
  | loopClose =>
    cases hc : s.loopCondition with
    | true =>
      rw [exec_loopClose_taken s hc] at h
      cases h
      simp
    | false =>
      rw [exec_loopClose_not_taken s hc] at h
      cases h
      simp
  | increment =>
    rw [exec_increment] at h
    cases h
    simp
  | shiftRight =>
    by_cases hd : s.dp = 255#8
    · cases hc : s.config.dpOverflow with
      | fault =>
        rw [exec_shiftRight_fault s hd hc] at h
        cases h
        simp [hd]
      | wrap =>
        rw [exec_shiftRight_wrap s hd hc] at h
        cases h
        simp [hd]
    · rw [exec_shiftRight_of_ne s hd] at h
      cases h
      simp [hd]

/-- Every instruction answers a next state (41_execute.md R106: the dispatch is total). -/
theorem exec_total (i : Instr) (s : State) : ∃ t, exec i s = .next t := by
  cases i with
  | loopOpen => exact ⟨_, rfl⟩
  | loopClose => exact ⟨_, rfl⟩
  | increment => exact ⟨_, rfl⟩
  | shiftRight =>
    by_cases hd : s.dp = 255#8
    · cases hc : s.config.dpOverflow with
      | fault => exact ⟨_, exec_shiftRight_fault s hd hc⟩
      | wrap => exact ⟨_, exec_shiftRight_wrap s hd hc⟩
    · exact ⟨_, exec_shiftRight_of_ne s hd⟩

/-! ### One step -/

theorem State.atEnd_iff (s : State) : s.atEnd = true ↔ s.ipl = 256#9 := by simp [State.atEnd]

theorem State.ipInRange_iff (s : State) : s.ipInRange = true ↔ s.ipl.toNat ≤ memSize := by
  simp [State.ipInRange]

/-- The halt check passes exactly below 256, once `ipl` is in range. -/
theorem State.ipl_lt_iff (s : State) : s.ipl.toNat < memSize ↔ s.ipInRange = true ∧ s.atEnd = false := by
  have h256 : s.ipl = 256#9 ↔ s.ipl.toNat = 256 :=
    ⟨fun h => by rw [h]; rfl, fun h => BitVec.eq_of_toNat_eq (by rw [h]; rfl)⟩
  simp only [State.ipInRange, State.atEnd, decide_eq_true_eq, decide_eq_false_iff_not, h256]
  show s.ipl.toNat < 256 ↔ s.ipl.toNat ≤ 256 ∧ ¬ s.ipl.toNat = 256
  omega

theorem State.executes_iff (s : State) : s.executes = true ↔
    s.runState = .running ∧ s.ipl.toNat < memSize ∧ s.passObserver = some s.observed := by
  unfold State.executes State.observed
  cases s.passObserver <;> simp

/-- A step that executes runs the fetched instruction on the state after the observe phase. -/
theorem step_of_executes (s : State) (h : s.executes = true) : step s = exec s.fetchInstr s.observed := by
  obtain ⟨hr, hl, hp⟩ := s.executes_iff.mp h
  obtain ⟨hi, he⟩ := s.ipl_lt_iff.mp hl
  unfold step
  rw [hr]
  simp [hi, he, hp]

theorem step_of_atEnd (s : State) (hr : s.runState = .running) (h : s.ipl = 256#9) : step s = .next s.halt := by
  have hi : s.ipInRange = true := by rw [State.ipInRange_iff, h]; decide
  have he := s.atEnd_iff.mpr h
  unfold step
  rw [hr]
  simp [hi, he]

theorem step_of_out_of_range (s : State) (hr : s.runState = .running) (h : memSize < s.ipl.toNat) :
    step s = .next (raiseFault .invariantViolation s) := by
  have hi : s.ipInRange = false := by
    rw [← Bool.not_eq_true, State.ipInRange_iff]
    exact Nat.not_le.mpr h
  unfold step
  rw [hr]
  simp [hi]

theorem step_of_waiting (s : State) (hr : s.runState = .running) (hl : s.ipl.toNat < memSize)
    (h : s.passObserver = none) : step s = .next s.wait := by
  obtain ⟨hi, he⟩ := s.ipl_lt_iff.mp hl
  unfold step
  rw [hr]
  simp [hi, he, h]

theorem step_of_halted (s : State) (h : s.runState = .halted) : step s = .fault .stuckHalted := by
  unfold step
  rw [h]

theorem step_of_faulted (s : State) (c : Condition) (l : PosLow) (k : Slot) (h : s.runState = .faulted c l k) :
    step s = .fault .stuckFaulted := by
  unfold step
  rw [h]

/-- Everything a step can do that answers a next state. -/
theorem step_cases {s t : State} (h : step s = .next t) :
    s.runState = .running ∧
      ((memSize < s.ipl.toNat ∧ t = raiseFault .invariantViolation s) ∨
        (s.ipl = 256#9 ∧ t = s.halt) ∨
        (s.ipl.toNat < memSize ∧ s.passObserver = none ∧ t = s.wait) ∨
        (s.executes = true ∧ exec s.fetchInstr s.observed = .next t)) := by
  cases hr : s.runState with
  | halted => rw [step_of_halted s hr] at h; cases h
  | faulted c l k => rw [step_of_faulted s c l k hr] at h; cases h
  | running =>
    refine ⟨rfl, ?_⟩
    rcases Nat.lt_trichotomy s.ipl.toNat memSize with hl | hl | hl
    · cases hp : s.passObserver with
      | none =>
        rw [step_of_waiting s hr hl hp] at h
        cases h
        exact .inr (.inr (.inl ⟨hl, rfl, rfl⟩))
      | some u =>
        have he : s.executes = true := s.executes_iff.mpr ⟨hr, hl, by simp [State.observed, hp]⟩
        rw [step_of_executes s he] at h
        exact .inr (.inr (.inr ⟨he, h⟩))
    · have he : s.ipl = 256#9 := BitVec.eq_of_toNat_eq (by rw [hl]; rfl)
      rw [step_of_atEnd s hr he] at h
      cases h
      exact .inr (.inl ⟨he, rfl⟩)
    · rw [step_of_out_of_range s hr hl] at h
      cases h
      exact .inl ⟨hl, rfl⟩

/-! ### Runs -/

@[simp] theorem run_zero (s : State) : run 0 s = .next s := rfl

theorem run_succ_of_next {s t : State} (n : Nat) (h : step s = .next t) : run (n + 1) s = run n t := by
  simp [run, h]

/-- A run of `n + 1` steps is a step and a run of `n`. -/
theorem run_succ_cases {n : Nat} {s t : State} (h : run (n + 1) s = .next t) :
    ∃ u, step s = .next u ∧ run n u = .next t := by
  unfold run at h
  cases hs : step s with
  | next u => rw [hs] at h; exact ⟨u, rfl, h⟩
  | fault f => rw [hs] at h; cases h
  | refused r => rw [hs] at h; cases h

/-- An invariant that every step keeps holds along every run: the induction, once. -/
theorem run_induction {P : State → Prop} (hstep : ∀ s t, P s → step s = .next t → P t) :
    ∀ (n : Nat) (s t : State), P s → run n s = .next t → P t := by
  intro n
  induction n with
  | zero =>
    intro s t hs h
    cases h
    exact hs
  | succ n ih =>
    intro s t hs h
    obtain ⟨u, hu, hr⟩ := run_succ_cases h
    exact ih u t (hstep s u hs hu) hr

theorem trail_succ_of_next {s t : State} (n : Nat) (h : step s = .next t) :
    trail (n + 1) s = if s.executes then s :: trail n t else trail n t := by
  simp [trail, h]

theorem traces_succ_of_next {s t : State} (n : Nat) (h : step s = .next t) :
    traces (n + 1) s = (traceOut s).toList ++ traces n t := by
  simp [traces, h]

/-- A wait does not change what the snapshot shows. -/
@[simp] theorem State.wait_snapshot (s : State) : s.wait.snapshot = s.snapshot := rfl

@[simp] theorem State.wait_waitingSnapshot (s : State) : s.wait.waitingSnapshot = [s.snapshot] := rfl

theorem State.waitingSnapshot_of_not_waiting (s : State) (h : s.traceWait = false) : s.waitingSnapshot = [] := by
  simp [State.waitingSnapshot, h]

/-- `run` is the host's `Core.run` of this machine. -/
theorem core_run_eq_run (n : Nat) (s : State) : Host.Core.run Sys2Proof.core n s = run n s := by
  induction n generalizing s with
  | zero => rfl
  | succ n ih =>
    have hs : Sys2Proof.core.step s = step s := rfl
    simp only [Host.Core.run, run, hs]
    cases step s with
    | next t => exact ih t
    | fault f => rfl
    | refused r => rfl

/-! ### The interface -/

/-- The word placed where the step fetches is the instruction the step fetches. -/
theorem withFetchWord_fetchInstr (s : State) (nbits w : Nat) :
    (s.withFetchWord nbits w).fetchInstr = decode (BitVec.ofNat 2 w) := by
  have hb : (s.withFetchWord nbits w).fetchByte =
      Codec.placeSlot s.fetchByte s.iph (BitVec.ofNat 2 w) := State.readByte_writeByte_same s _ _
  show Codec.slotInstr (s.withFetchWord nbits w).fetchByte s.iph = _
  rw [hb, Codec.slotInstr_placeSlot_same]
  rfl

/-- A step with a word placed runs that word's instruction. -/
theorem step_withFetchWord (s : State) (nbits w : Nat) (h : s.executes = true) :
    step (s.withFetchWord nbits w) = exec (decode (BitVec.ofNat 2 w)) (s.withFetchWord nbits w).observed := by
  obtain ⟨hr, hl, hp⟩ := s.executes_iff.mp h
  have he : (s.withFetchWord nbits w).executes = true := by
    have h0 := h
    unfold State.executes at h0 ⊢
    have hpo : (s.withFetchWord nbits w).passObserver.isSome = s.passObserver.isSome := by
      obtain ⟨hb, -⟩ | ⟨hb, b, l, hbl, -⟩ := State.passObserver_cases hp
      · rw [State.passObserver_of_not_blocking s hb,
          State.passObserver_of_not_blocking (s.withFetchWord nbits w) hb]
        rfl
      · rw [State.passObserver_blocking_cons s b l hb hbl,
          State.passObserver_blocking_cons (s.withFetchWord nbits w) b l hb hbl]
        rfl
    rw [hpo]
    exact h0
  rw [step_of_executes _ he, withFetchWord_fetchInstr]

end Sys2Proof.Machine
end

