-- ==== Sys2Proof/Tests/Slice0.lean ====
section
/-! SUPPORT. The model's own tests: decoding, one step on small states, and a witness for each statement that has
hypotheses. Expected values are from 95_test_vectors.md and the rules' worked examples; each test names its source. -/
namespace Sys2Proof.Tests
open Sys2Proof.Machine

/-! ### Helpers -/

/-- A reset state with the given memory, instruction pointer, data pointer and return pointer. -/
def tst (m : Memory) (l h d rl rh : Nat) : State :=
  { State.reset with mem := m, ipl := .ofNat 9 l, iph := .ofNat 2 h, dp := .ofNat 8 d, rpl := .ofNat 9 rl,
                     rph := .ofNat 2 rh }

/-- The next state of an outcome. -/
def nextOf (o : Host.Outcome State Fault Refusal) : Option State :=
  match o with
  | .next s => some s
  | .fault _ => none
  | .refused _ => none

theorem eq_next_of_nextOf {o : Host.Outcome State Fault Refusal} {t : State} (h : nextOf o = some t) : o = .next t := by
  cases o with
  | next s => exact congrArg _ (Option.some.inj h)
  | fault f => cases h
  | refused r => cases h

/-- `s` under WRAP. -/
def wrapped (s : State) : State := { s with config := { s.config with dpOverflow := .wrap } }

/-- The invariant of a RUNNING state that does not wait comes down to its decidable parts. -/
theorem inv_of_running (s : State) (h : s.mem.wf ∧ s.ipl.toNat ≤ memSize ∧ (s.ipl = 256#9 → s.iph = 0#2) ∧
    posIndex s.rp ≤ posIndex s.ip ∧ s.traceWait = false ∧ s.runState = .running) : s.Inv := by
  obtain ⟨h1, h2, h3, h4, h5, h6⟩ := h
  exact ⟨h1, h2, h3, h4, by simp [h5], by simp [h6], by simp [h6]⟩

/-! ### Well-formedness: each check refuses an ill-formed term, and the boundary passes -/

theorem test_group_of_five_refused : groupWf (List.replicate 5 .increment) = false := by decide
theorem test_group_of_four_accepted : groupWf (List.replicate 4 .increment) = true := by decide
theorem test_program_of_1025_refused : programWf (List.replicate 1025 .increment) = false := by decide +kernel
theorem test_program_of_1024_accepted : programWf (List.replicate 1024 .increment) = true := by decide +kernel

/-! ### Decoding: words written out from 30_encoding.md section 5 and 95_test_vectors.md section 2.1 -/

theorem test_decode_loopOpen : decode 0b00#2 = .loopOpen := by decide
theorem test_decode_loopClose : decode 0b01#2 = .loopClose := by decide
theorem test_decode_increment : decode 0b10#2 = .increment := by decide
theorem test_decode_shiftRight : decode 0b11#2 = .shiftRight := by decide
theorem test_decode_byte_1B : Codec.decodeByte 0b00011011#8 = #v[.loopOpen, .loopClose, .increment, .shiftRight] := by
  decide
theorem test_decode_byte_81 : Codec.decodeByte 0b10000001#8 = #v[.increment, .loopOpen, .loopOpen, .loopClose] := by
  decide
theorem test_encode_group_short : Codec.encodeGroup [.increment, .increment, .increment] = .ok 0xA8#8 := by decide
theorem test_encode_group_five : Codec.encodeGroup (List.replicate 5 .loopOpen) = .error (.groupTooLong 5) := by decide
theorem test_table_words : decodeTableWord 8 0b00 = some .loopOpen ∧ decodeTableWord 8 0b01 = some .loopClose ∧
    decodeTableWord 8 0b10 = some .increment ∧ decodeTableWord 8 0b11 = some .shiftRight := by decide

/-- 95_test_vectors.md 2.1: `"+]{"` is refused at index 2. -/
theorem test_decode_program_brace :
    Codec.decodeProgram [0x2B#8, 0x5D#8, 0x7B#8] = .error (.invalidInstructionChar 0x7B#8 2) := by decide

/-- 95_test_vectors.md 2.1: `"+]+>>"` gives `mem[0] = 0x9B`, `mem[1] = 0xC0`. -/
theorem test_load_program : load Config.standard [0x2B#8, 0x5D#8, 0x2B#8, 0x3E#8, 0x3E#8] =
    .ok (tst [(0, 0x9B#8), (1, 0xC0#8)] 0 0 0 0 0) := by decide +kernel

/-- D15: a loader that strips newlines hands the codec the rest. -/
theorem test_boot_strips : boot (fun raw => raw.filter (· ≠ 0x0A#8)) Config.standard
    [0x2B#8, 0x5D#8, 0x2B#8, 0x0A#8, 0x3E#8, 0x3E#8, 0x0A#8] = .ok (tst [(0, 0x9B#8), (1, 0xC0#8)] 0 0 0 0 0) :=
  test_load_program

/-! ### One step on small states (95_test_vectors.md sections 2.2 to 2.7) -/

/-- H1. -/
theorem test_halt_check : nextOf (step (tst [] 256 0 4 256 0)) =
    some { tst [] 256 0 4 256 0 with runState := .halted } := by decide

/-- LO2: the carry from slot 3. -/
theorem test_loopOpen_carry : nextOf (step (tst [] 5 3 0 0 0)) = some (tst [] 6 0 0 6 0) := by decide

/-- LO3: the last position. -/
theorem test_loopOpen_last : nextOf (step (tst [] 255 3 0 0 0)) = some (tst [] 256 0 0 256 0) := by decide

/-- LC1: taken, no advance. -/
theorem test_loopClose_taken : nextOf (step (tst [(1, 0x55#8), (2, 7#8)] 1 0 2 0 3)) =
    some (tst [(1, 0x55#8), (2, 7#8)] 0 3 2 0 3) := by decide

/-- LC3: not taken, with carry. -/
theorem test_loopClose_not_taken : nextOf (step (tst [(4, 0x55#8)] 4 3 9 2 1)) =
    some (tst [(4, 0x55#8)] 5 0 9 2 1) := by decide

/-- IN2: 255 wraps to 0, which an unlisted cell reads as. -/
theorem test_increment_wraps : nextOf (step (tst [(0, 0xAA#8), (3, 0xFF#8)] 0 1 3 0 0)) =
    some (tst [(0, 0xAA#8)] 0 2 3 0 0) := by decide

/-- IN3: self-modification of the current byte. -/
theorem test_increment_self : nextOf (step (tst [(0, 0x80#8)] 0 0 0 0 0)) = some (tst [(0, 0x81#8)] 0 1 0 0 0) := by
  decide

/-- SR3: the fault. -/
theorem test_shiftRight_fault : nextOf (step (tst [(10, 0xFF#8)] 10 1 255 3 2)) =
    some { tst [(10, 0xFF#8)] 10 1 255 3 2 with runState := .faulted .dataPointerOutOfRange 10#9 1#2 } := by decide

/-- SR5: WRAP, with carry. -/
theorem test_shiftRight_wrap : nextOf (step (wrapped (tst [(10, 0xFF#8)] 10 3 255 3 2))) =
    some (wrapped (tst [(10, 0xFF#8)] 11 0 0 3 2)) := by decide

/-- 2.7: the second snapshot of program P4. -/
theorem test_trace_snapshot : traceOut ((tst [(0, 0xA5#8)] 0 1 0 0 0).withTrace .observe) =
    some { ipl := 0#9, iph := 1#2, dp := 0#8, cell := 0xA5#8, rpl := 0#9, rph := 0#2, char := 0x2B#8 } := by decide

/-- 60_exceptions.md R147: with no signal the step waits. -/
theorem test_trace_wait : nextOf (step (State.reset.withTrace .blocking)) =
    some { State.reset.withTrace .blocking with traceWait := true } := by decide

/-- The host's placed words run at reset: here `+`, whose own byte `0x80` it increments (IN3). -/
theorem test_withFetchWord : nextOf (step (State.reset.withFetchWord 8 0b10)) =
    some (tst [(0, 0x81#8)] 0 1 0 0 0) := by decide

/-! ### Witnesses: concrete states and operands that meet the hypotheses of each statement, at the boundaries -/

theorem witness_EncodeGroupFillsSlotsAndRefusesFive :
    [Instr.increment, .loopClose, .loopOpen, .shiftRight].length ≤ 4 ∧ 4 < (List.replicate 5 Instr.loopOpen).length := by
  decide

theorem witness_GroupRoundTripPadsWithLoopOpen :
    ([] : List Instr).length ≤ 4 ∧ [Instr.increment, .loopClose, .loopOpen, .shiftRight].length ≤ 4 := by decide

theorem witness_AlphabetIsExactlyFourCharacters :
    Codec.charOf .loopOpen ≠ 0x7B#8 ∧ Codec.charOf .loopClose ≠ 0x7B#8 ∧ Codec.charOf .increment ≠ 0x7B#8 ∧
      Codec.charOf .shiftRight ≠ 0x7B#8 ∧ 0x80 ≤ (0x80#8).toNat ∧ 0x80 ≤ (0xFF#8).toNat := by decide

theorem witness_DecodeProgramReportsTheFirstInvalidCharacter :
    Codec.decodeProgram [0x2B#8, 0x0A#8] = .error (.invalidInstructionChar 0x0A#8 1) ∧
      ([0x2B#8, 0x0A#8] : List Byte)[0]? = some 0x2B#8 := by decide

theorem witness_PackChunksTheProgramAndZeroFills :
    (List.replicate 1024 Instr.increment).length ≤ 1024 ∧ 4 * (255 : Fin 256).val < 1024 ∧
      [Instr.increment].length ≤ 4 * (1 : Fin 256).val ∧ 1024 < (List.replicate 1025 Instr.increment).length ∧
      Codec.decodeProgram (List.replicate 1025 0x2B#8) = .ok (List.replicate 1025 .increment) := by decide +kernel

/-- A program that fits has an image. -/
theorem pack_of_fits (s : List Instr) (h : ¬ maxProgram < s.length) : ∃ img, Codec.pack s = .ok img :=
  ⟨_, by rw [Codec.pack, if_neg h]⟩

theorem witness_ImageReadsBackAsTheProgram :
    (∃ img, Codec.pack [.increment] = .ok img) ∧ ∃ img, Codec.pack (List.replicate 1024 .shiftRight) = .ok img :=
  ⟨pack_of_fits _ (by decide +kernel), pack_of_fits _ (by decide +kernel)⟩

theorem witness_PackForgetsTrailingLoopOpens : [Instr.increment].length + 1023 ≤ 1024 := by decide

theorem witness_ProgramTooLargeOnlyForValidTexts :
    ∃ b ∈ ([0x2B#8, 0x7B#8] : List Byte), ∀ i, Codec.instructionOf b ≠ .ok i :=
  ⟨0x7B#8, by decide, fun i => by cases i <;> decide⟩

theorem witness_LoadGivesTheResetState :
    load Config.standard [0x2B#8, 0x5D#8, 0x2B#8, 0x3E#8, 0x3E#8] =
      .ok (tst [(0, 0x9B#8), (1, 0xC0#8)] 0 0 0 0 0) := test_load_program

/-- A text of 1024 characters, the longest that loads, and one of 1025 (40_codec.md R86, corner cases). -/
theorem witness_LoadGivesTheResetState_which_texts :
    ((∀ b ∈ List.replicate 1024 (0x2B#8 : Byte), ∃ i, Codec.instructionOf b = .ok i) ∧
      (List.replicate 1024 (0x2B#8 : Byte)).length ≤ 1024) ∧
      ¬ (List.replicate 1025 (0x2B#8 : Byte)).length ≤ 1024 := by
  refine ⟨⟨fun b hb => ⟨.increment, ?_⟩, List.length_replicate.le⟩, by rw [List.length_replicate]; decide⟩
  rw [List.eq_of_mem_replicate hb]
  rfl

theorem witness_LoadedProgramIsFetchedInOrder :
    load Config.standard [0x2B#8, 0x5D#8, 0x2B#8, 0x3E#8, 0x3E#8] =
      .ok (tst [(0, 0x9B#8), (1, 0xC0#8)] 0 0 0 0 0) ∧ (⟨255#9, 3#2⟩ : Pos).l.toNat < 256 :=
  ⟨test_load_program, by decide⟩

theorem witness_StepIsEnabledOnlyWhenRunning :
    State.reset.halt.runState = .halted ∧
      (raiseFault .dataPointerOutOfRange State.reset).runState = .faulted .dataPointerOutOfRange 0#9 0#2 ∧
      ((tst [] 255 3 0 0 0).withTrace .blocking).runState = .running ∧
      ((tst [] 255 3 0 0 0).withTrace .blocking).ipl.toNat < 256 ∧
      traceBlocking ((tst [] 255 3 0 0 0).withTrace .blocking).config = true ∧
      ((tst [] 255 3 0 0 0).withTrace .blocking).continueIn = [] := by decide

theorem witness_HaltCheckEndsTheRunAtAddress256 :
    ((tst [] 256 0 4 256 0).runState = .running ∧ (tst [] 256 0 4 256 0).ipl = 256#9) ∧
      (step (tst [] 256 0 4 256 0) = .next (tst [] 256 0 4 256 0).halt ∧
        (tst [] 256 0 4 256 0).halt.runState = .halted) ∧
      (tst [] 255 3 0 0 0).Inv ∧ step (tst [] 255 3 0 0 0) = .next (tst [] 256 0 0 256 0) ∧
      (tst [] 256 0 0 256 0).ipl = 256#9 :=
  ⟨by decide, ⟨eq_next_of_nextOf (by decide), by decide⟩, inv_of_running _ (by decide), eq_next_of_nextOf (by decide),
    by decide⟩

theorem witness_StepRunsTheDecodedInstruction :
    ((tst [(255, 0xFF#8)] 255 3 0 0 0).runState = .running ∧ (tst [(255, 0xFF#8)] 255 3 0 0 0).ipl.toNat < 256 ∧
      (tst [(255, 0xFF#8)] 255 3 0 0 0).config.trace ≠ .blocking) ∧
      ((tst [] 0 0 0 0 0).withTrace .observe).config.trace ≠ .blocking := by decide

theorem witness_BlockingStepTakesOneContinueSignal :
    (((tst [] 255 3 0 0 0).withTrace .blocking).withSignals [0#8]).config.trace = .blocking ∧
      (((tst [] 255 3 0 0 0).withTrace .blocking).withSignals [0#8]).executes = true := by decide

theorem witness_LoopOpenSetsTheReturnPointer :
    (tst [] 5 3 0 0 0).iph = 3#2 ∧ (tst [] 5 2 0 0 0).iph ≠ 3#2 ∧ (tst [] 255 3 0 0 0).ipl = 255#9 ∧
      (tst [] 255 3 0 0 0).iph = 3#2 := by decide

/-- The last clause's hypotheses are LC6 of 95_test_vectors.md. -/
theorem witness_LoopCloseJumpsWhileTheCellIsNonzero :
    (tst [(2, 7#8)] 1 0 2 0 3).readByte (tst [(2, 7#8)] 1 0 2 0 3).dp ≠ 0#8 ∧
      ((tst [] 1 2 2 0 3).readByte (tst [] 1 2 2 0 3).dp = 0#8 ∧ (tst [] 1 2 2 0 3).iph ≠ 3#2) ∧
      ((tst [] 255 3 2 0 3).readByte (tst [] 255 3 2 0 3).dp = 0#8 ∧ (tst [] 255 3 2 0 3).iph = 3#2) ∧
      ((tst [(0, 0xE1#8), (1, 1#8)] 0 3 1 0 3).executes = true ∧
        (tst [(0, 0xE1#8), (1, 1#8)] 0 3 1 0 3).config.trace ≠ .blocking ∧
        (tst [(0, 0xE1#8), (1, 1#8)] 0 3 1 0 3).fetchInstr = .loopClose ∧
        (tst [(0, 0xE1#8), (1, 1#8)] 0 3 1 0 3).readByte (tst [(0, 0xE1#8), (1, 1#8)] 0 3 1 0 3).dp ≠ 0#8 ∧
        (tst [(0, 0xE1#8), (1, 1#8)] 0 3 1 0 3).rp = (tst [(0, 0xE1#8), (1, 1#8)] 0 3 1 0 3).ip) := by decide

theorem witness_IncrementAddsOneToTheCell :
    (1#8 : Addr) ≠ (tst [(0, 0x80#8)] 0 0 0 0 0).dp ∧
      (tst [(0, 0x80#8)] 0 0 0 0 0).ipl = (tst [(0, 0x80#8)] 0 0 0 0 0).dp.setWidth 9 ∧
      (tst [(0, 0x80#8)] 0 0 0 0 0).iph ≠ 3#2 := by decide

theorem witness_ShiftRightAdvancesTheDataPointer :
    (tst [] 0 2 254 0 0).dp ≠ 255#8 ∧
      ((tst [] 10 1 255 3 2).dp = 255#8 ∧ (tst [] 10 1 255 3 2).config.dpOverflow = .fault) ∧
      ((wrapped (tst [] 10 1 255 3 2)).dp = 255#8 ∧ (wrapped (tst [] 10 1 255 3 2)).config.dpOverflow = .wrap) ∧
      ((tst [(0, 0xFF#8)] 0 0 254 0 0).config.dpOverflow = .fault ∧
        run 1 (tst [(0, 0xFF#8)] 0 0 254 0 0) = .next (tst [(0, 0xFF#8)] 0 1 255 0 0) ∧
        (tst [(0, 0xFF#8)] 0 1 255 0 0).isFaulted = false) :=
  ⟨by decide, by decide, by decide, by decide, eq_next_of_nextOf (by decide), by decide⟩

theorem witness_DataPointerFaultIsPrecise :
    ((tst [(10, 0xFF#8)] 10 1 255 3 2).executes = true ∧ (tst [(10, 0xFF#8)] 10 1 255 3 2).fetchInstr = .shiftRight ∧
      (tst [(10, 0xFF#8)] 10 1 255 3 2).dp = 255#8 ∧
      (tst [(10, 0xFF#8)] 10 1 255 3 2).config.dpOverflow = .fault) ∧
      (wrapped (tst [(10, 0xFF#8)] 10 3 255 3 2)).config.dpOverflow = .wrap ∧
      step (wrapped (tst [(10, 0xFF#8)] 10 3 255 3 2)) = .next (wrapped (tst [(10, 0xFF#8)] 11 0 0 3 2)) :=
  ⟨by decide, by decide, eq_next_of_nextOf (by decide)⟩

theorem witness_AdvanceCarriesIntoTheNextByte :
    (exec .increment (tst [] 7 2 9 0 0) = .next (tst [(9, 1#8)] 7 3 9 0 0) ∧
      ¬ (Instr.increment = .loopClose ∧ (tst [] 7 2 9 0 0).loopCondition = true) ∧
      (tst [(9, 1#8)] 7 3 9 0 0).isFaulted = false ∧ (tst [] 7 2 9 0 0).iph ≠ 3#2) ∧
      (exec .loopClose (tst [] 255 3 9 0 0) = .next (tst [] 256 0 9 0 0) ∧
        ¬ (Instr.loopClose = .loopClose ∧ (tst [] 255 3 9 0 0).loopCondition = true) ∧
        (tst [] 256 0 9 0 0).isFaulted = false ∧ (tst [] 255 3 9 0 0).ipl = 255#9 ∧
        (tst [] 255 3 9 0 0).iph = 3#2 ∧ (tst [] 256 0 9 0 0).runState = .running) ∧
      (tst [] 255 3 0 0 0).Inv ∧ step (tst [] 255 3 0 0 0) = .next (tst [] 256 0 0 256 0) :=
  ⟨⟨eq_next_of_nextOf (by decide), by decide, by decide, by decide⟩,
    ⟨eq_next_of_nextOf (by decide), by decide, by decide, by decide, by decide, by decide⟩,
    inv_of_running _ (by decide), eq_next_of_nextOf (by decide)⟩

theorem witness_NonStoringInstructionsKeepTheRest :
    exec .loopOpen (tst [] 255 3 0 0 0) = .next (tst [] 256 0 0 256 0) ∧
      exec .loopClose (tst [(2, 7#8)] 1 0 2 0 3) = .next (tst [(2, 7#8)] 0 3 2 0 3) ∧
      exec .shiftRight (tst [] 0 2 254 0 0) = .next (tst [] 0 3 255 0 0) ∧
      exec .shiftRight (tst [] 10 1 255 3 2) = .next (raiseFault .dataPointerOutOfRange (tst [] 10 1 255 3 2)) :=
  ⟨eq_next_of_nextOf (by decide), eq_next_of_nextOf (by decide), eq_next_of_nextOf (by decide),
    eq_next_of_nextOf (by decide)⟩

theorem witness_IncrementStoresOneByteAtDp :
    exec .increment (tst [(3, 0x41#8)] 0 0 3 0 0) = .next (tst [(3, 0x42#8)] 0 1 3 0 0) ∧ (2#8 : Addr) ≠ 3#8 :=
  ⟨eq_next_of_nextOf (by decide), by decide⟩

/-- A step that changes a cell, one that changes `dp`, one that changes both pointers, one that faults, one that halts
and one that waits; `ipl` is at most 256 in each. -/
theorem witness_StepWritesOnlyWhatItsInstructionNames :
    (step (tst [(0, 0xAA#8), (3, 0x41#8)] 0 0 3 0 0) = .next (tst [(0, 0xAA#8), (3, 0x42#8)] 0 1 3 0 0) ∧
      (tst [(0, 0xAA#8), (3, 0x42#8)] 0 1 3 0 0).readByte 3#8 ≠
        (tst [(0, 0xAA#8), (3, 0x41#8)] 0 0 3 0 0).readByte 3#8) ∧
      step (tst [(0, 0xFF#8)] 0 2 254 0 0) = .next (tst [(0, 0xFF#8)] 0 3 255 0 0) ∧
      step (tst [] 5 3 0 0 0) = .next (tst [] 6 0 0 6 0) ∧
      step (tst [(10, 0xFF#8)] 10 1 255 3 2) =
        .next (raiseFault .dataPointerOutOfRange (tst [(10, 0xFF#8)] 10 1 255 3 2)) ∧
      step (tst [] 256 0 4 256 0) = .next (tst [] 256 0 4 256 0).halt ∧
      step (State.reset.withTrace .blocking) = .next (State.reset.withTrace .blocking).wait :=
  ⟨⟨eq_next_of_nextOf (by decide), by decide⟩, eq_next_of_nextOf (by decide), eq_next_of_nextOf (by decide),
    eq_next_of_nextOf (by decide), eq_next_of_nextOf (by decide), eq_next_of_nextOf (by decide)⟩

/-- A run of two LoopOpens, used by the statements about runs. -/
theorem witness_run : (tst [] 5 2 0 0 0).Inv ∧ run 2 (tst [] 5 2 0 0 0) = .next (tst [] 6 0 0 6 0) ∧
    (tst [] 6 0 0 6 0).isFaulted = false :=
  ⟨inv_of_running _ (by decide), eq_next_of_nextOf (by decide), by decide⟩

theorem witness_ConfigurationIsFixedForTheRun : run 2 (tst [] 5 2 0 0 0) = .next (tst [] 6 0 0 6 0) := witness_run.2.1

theorem witness_StepKeepsTheInvariant :
    (tst [(1, 0x55#8), (2, 7#8)] 1 0 2 0 3).Inv ∧
      step (tst [(1, 0x55#8), (2, 7#8)] 1 0 2 0 3) = .next (tst [(1, 0x55#8), (2, 7#8)] 0 3 2 0 3) :=
  ⟨inv_of_running _ (by decide), eq_next_of_nextOf (by decide)⟩

theorem witness_LoadMeetsTheInvariant :
    load Config.standard [0x2B#8, 0x5D#8, 0x2B#8, 0x3E#8, 0x3E#8] =
      .ok (tst [(0, 0x9B#8), (1, 0xC0#8)] 0 0 0 0 0) := test_load_program

theorem witness_TakenLoopCloseNeverJumpsForward :
    (tst [(1, 0x55#8), (2, 7#8)] 1 0 2 0 3).Inv ∧ (tst [(1, 0x55#8), (2, 7#8)] 1 0 2 0 3).executes = true ∧
      (tst [(1, 0x55#8), (2, 7#8)] 1 0 2 0 3).takesJump = true ∧
      step (tst [(1, 0x55#8), (2, 7#8)] 1 0 2 0 3) = .next (tst [(1, 0x55#8), (2, 7#8)] 0 3 2 0 3) :=
  ⟨inv_of_running _ (by decide), by decide, by decide, eq_next_of_nextOf (by decide)⟩

/-- The end of 95_test_vectors.md P7: `[` at (0,2), then `]` at (0,3) that jumps to itself. -/
theorem witness_ReturnPointerFollowsTheLastLoopOpen :
    run 1 (tst [(0, 0xE1#8), (1, 1#8)] 0 2 1 0 0) = .next (tst [(0, 0xE1#8), (1, 1#8)] 0 3 1 0 3) ∧
      (tst [(0, 0xE1#8), (1, 1#8)] 0 3 1 0 3).executes = true ∧
      (tst [(0, 0xE1#8), (1, 1#8)] 0 3 1 0 3).takesJump = true ∧
      step (tst [(0, 0xE1#8), (1, 1#8)] 0 3 1 0 3) = .next (tst [(0, 0xE1#8), (1, 1#8)] 0 3 1 0 3) :=
  ⟨eq_next_of_nextOf (by decide), by decide, by decide, eq_next_of_nextOf (by decide)⟩

theorem witness_SelfLoopOnlyRightAfterItsLoopOpen :
    run 1 (tst [(0, 0xE1#8), (1, 1#8)] 0 2 1 0 0) = .next (tst [(0, 0xE1#8), (1, 1#8)] 0 3 1 0 3) ∧
      lastOpen (trail 1 (tst [(0, 0xE1#8), (1, 1#8)] 0 2 1 0 0)) = some (tst [(0, 0xE1#8), (1, 1#8)] 0 2 1 0 0) :=
  ⟨eq_next_of_nextOf (by decide), by decide⟩

theorem witness_CellCountsItsIncrements :
    run 2 (tst [(0, 0xA0#8)] 0 0 3 0 0) = .next (tst [(0, 0xA0#8), (3, 2#8)] 0 2 3 0 0) :=
  eq_next_of_nextOf (by decide)

theorem witness_DataPointerCountsShiftRights :
    run 2 (wrapped (tst [(0, 0xF0#8)] 0 0 255 0 0)) = .next (wrapped (tst [(0, 0xF0#8)] 0 2 1 0 0)) ∧
      (wrapped (tst [(0, 0xF0#8)] 0 2 1 0 0)).isFaulted = false :=
  ⟨eq_next_of_nextOf (by decide), by decide⟩

theorem witness_StepCountAccountsForEveryJump :
    (tst [] 255 3 0 0 0).Inv ∧ run 2 (tst [] 255 3 0 0 0) = .next (tst [] 256 0 0 256 0).halt ∧
      (tst [] 256 0 0 256 0).halt.isFaulted = false ∧ (tst [] 256 0 0 256 0).halt.runState = .halted :=
  ⟨inv_of_running _ (by decide), eq_next_of_nextOf (by decide), by decide, by decide⟩

theorem witness_RunWithoutJumpsHalts :
    (tst [] 255 3 0 0 0).Inv ∧ (tst [] 255 3 0 0 0).runState = .running ∧
      (tst [] 255 3 0 0 0).config.trace ≠ .blocking ∧
      (∀ u ∈ trail (1024 - posIndex (tst [] 255 3 0 0 0).ip) (tst [] 255 3 0 0 0), u.takesJump = false) ∧
      ∀ (j : Nat) (t : State), run j (tst [] 255 3 0 0 0) = .next t → t.isFaulted = false := by
  refine ⟨inv_of_running _ (by decide), by decide, by decide, by decide, fun j t h => ?_⟩
  match j, h with
  | 0, h => cases h; decide
  | 1, h => cases h; decide
  | 2, h => cases h; decide
  | j + 3, h => cases h

theorem witness_InvariantViolationIsRecordedAndUnreachable :
    ((tst [(10, 0xFF#8)] 10 1 255 3 2).Inv ∧
      step (tst [(10, 0xFF#8)] 10 1 255 3 2) =
        .next (raiseFault .dataPointerOutOfRange (tst [(10, 0xFF#8)] 10 1 255 3 2)) ∧
      (raiseFault .dataPointerOutOfRange (tst [(10, 0xFF#8)] 10 1 255 3 2)).runState =
        .faulted .dataPointerOutOfRange 10#9 1#2) ∧
      (tst [] 257 0 0 0 0).runState = .running ∧ 256 < (tst [] 257 0 0 0 0).ipl.toNat ∧
      256 < (tst [] 511 3 0 0 0).ipl.toNat :=
  ⟨⟨inv_of_running _ (by decide), eq_next_of_nextOf (by decide), by decide⟩, by decide, by decide, by decide⟩

theorem witness_StepRefinesTheOneFunctionStep :
    ((tst [] 255 3 0 0 0).runState = .running ∧ (tst [] 255 3 0 0 0).ipl.toNat ≤ 256 ∧
      (tst [] 255 3 0 0 0).executes = true) ∧
      (tst [] 256 0 4 256 0).runState = .running ∧ (tst [] 256 0 4 256 0).ipl.toNat ≤ 256 ∧
      (tst [] 256 0 4 256 0).ipl = 256#9 := by decide

theorem witness_NextFetchSeesTheIncrement :
    (tst [(0, 0x80#8)] 0 0 0 0 0).executes = true ∧ (tst [(0, 0x80#8)] 0 0 0 0 0).fetchInstr = .increment ∧
      step (tst [(0, 0x80#8)] 0 0 0 0 0) = .next (tst [(0, 0x81#8)] 0 1 0 0 0) :=
  ⟨by decide, by decide, eq_next_of_nextOf (by decide)⟩

theorem witness_MemoriesThatReadAlikeAreEqual :
    Memory.wf [(0, 0x80#8), (255, 1#8)] ∧
      ∀ a < 256, Memory.read [(0, 0x80#8), (255, 1#8)] a =
        Memory.read (Memory.write [(0, 0x80#8)] 255 1#8) a := by
  refine ⟨by decide, fun a _ => ?_⟩
  rfl

theorem witness_SuccessorRaisesTheIndexByOne :
    (⟨0#9, 3#2⟩ : Pos).l.toNat ≤ 256 ∧ (⟨256#9, 3#2⟩ : Pos).l.toNat ≤ 256 := by decide

theorem witness_TraceSnapshotShowsTheStateBeforeExecution :
    (traceEnable ((tst [] 255 3 0 0 0).withTrace .observe).config = true ∧
      ((tst [] 255 3 0 0 0).withTrace .observe).runState = .running ∧
      ((tst [] 255 3 0 0 0).withTrace .observe).ipl.toNat < 256 ∧
      ((tst [] 255 3 0 0 0).withTrace .observe).traceWait = false) ∧
      traceEnable (tst [] 255 3 0 0 0).config = false ∧
      ((tst [] 256 0 0 0 0).withTrace .observe).ipl = 256#9 := by decide

/-- The last clause at a run of two waiting steps, and at one that takes a signal after a wait. -/
theorem witness_OneSnapshotPerExecutedStep :
    (((tst [] 255 3 0 0 0).withTrace .observe).config.trace = .observe ∧
      ((tst [] 255 3 0 0 0).withTrace .observe).traceWait = false) ∧
      ((tst [] 255 3 0 0 0).withTrace .blocking).wait.traceWait = true ∧
      (((tst [] 255 3 0 0 0).withTrace .blocking).Inv ∧
        traceEnable ((tst [] 255 3 0 0 0).withTrace .blocking).config = true ∧
        run 2 ((tst [] 255 3 0 0 0).withTrace .blocking) = .next ((tst [] 255 3 0 0 0).withTrace .blocking).wait ∧
        traces 2 ((tst [] 255 3 0 0 0).withTrace .blocking) = [(tst [] 255 3 0 0 0).snapshot]) ∧
      (((tst [] 255 3 0 0 0).withTrace .blocking).wait.signalContinue 0#8).Inv ∧
      run 1 (((tst [] 255 3 0 0 0).withTrace .blocking).wait.signalContinue 0#8) =
        .next ((tst [] 256 0 0 256 0).withTrace .blocking) :=
  ⟨by decide, by decide, ⟨inv_of_running _ (by decide), by decide, eq_next_of_nextOf (by decide), by decide⟩,
    ⟨by decide, by decide, by decide, by decide, by decide, by decide, fun _ _ _ h => by cases h⟩,
    eq_next_of_nextOf (by decide)⟩

theorem witness_TracingLeavesTheStatesTheSame :
    run 2 ((tst [] 255 3 0 0 0).withTrace .off) = .next (tst [] 256 0 0 256 0).halt ∧
      run 3 ((tst [] 255 3 0 0 0).withTrace .off) = .fault .stuckHalted :=
  ⟨eq_next_of_nextOf (by decide), rfl⟩

theorem witness_BlockingTraceGivesTheSameStates :
    (tst [] 255 3 0 0 0).traceWait = false ∧
      run 2 ((tst [] 255 3 0 0 0).withTrace .off) = .next (tst [] 256 0 0 256 0).halt ∧
      (trail 2 ((tst [] 255 3 0 0 0).withTrace .off)).length ≤ [0x0A#8].length :=
  ⟨by decide, eq_next_of_nextOf (by decide), by decide⟩

theorem witness_BlockingStepWaitsForOneSignal :
    ((tst [] 255 3 0 0 0).withTrace .blocking).runState = .running ∧
      ((tst [] 255 3 0 0 0).withTrace .blocking).ipl.toNat < 256 ∧
      ((tst [] 255 3 0 0 0).withTrace .blocking).config.trace = .blocking ∧
      ((tst [] 255 3 0 0 0).withTrace .blocking).continueIn = [] ∧
      traceBlocking ((tst [] 255 3 0 0 0).withTrace .blocking).config = true := by decide

theorem witness_CodecPortsCarryTheCodes :
    (0 ≤ 4 ∧ encodeGroupPort #v[0b10#2, 0b11#2, 0b10#2, 0b11#2] 0 = some 0x00#8) ∧
      (3 ≤ 4 ∧ encodeGroupPort #v[0b10#2, 0b10#2, 0b10#2, 0b11#2] 3 = some 0xA8#8) ∧
      encodeGroupPort #v[0b00#2, 0b01#2, 0b10#2, 0b11#2] 4 = some 0x1B#8 ∧ 4 < 5 ∧
      instructionOfPort 0x2B#8 = some 0b10#2 ∧ instructionOfPort 0x7B#8 = none ∧
      decodeBytePort 0xE4#8 = #v[0b11#2, 0b10#2, 0b01#2, 0b00#2] := by decide

/-- The read-out of a halted state, and a halted state that meets the invariant. -/
theorem witness_ReadOutShowsTheFinalState :
    (∃ r, readOut (tst [] 256 0 0 256 0).halt = some r) ∧ (tst [] 256 0 0 256 0).halt.Inv ∧
      (tst [] 256 0 0 256 0).halt.runState = .halted :=
  ⟨⟨_, rfl⟩, ⟨by decide, by decide, by decide, by decide, by decide, by decide, by simp⟩, by decide⟩

end Sys2Proof.Tests
end

section
/-! The packed byte (30_encoding.md R62): the bits of a code in its slot, a full group as a concatenation, and a slot
as a shifted and masked field. -/
namespace Sys2Proof.Codec

/-- A code in slot `k` fills the byte from bit `6 - 2k` up. -/
theorem getLsbD_slotBits (c : Code) (k j : Nat) (hj : j < 8) :
    (slotBits c k).getLsbD j = (decide (6 - 2 * k ≤ j) && c.getLsbD (j - (6 - 2 * k))) := by
  grind [slotBits]

/-- The case split is by the slot that bit `j` belongs to: there only that slot's code has a bit. -/
theorem slotBits_or_eq_append (c₀ c₁ c₂ c₃ : Code) :
    slotBits c₀ 0 ||| (slotBits c₁ 1 ||| (slotBits c₂ 2 ||| slotBits c₃ 3)) = c₀ ++ c₁ ++ c₂ ++ c₃ := by
  apply BitVec.eq_of_getLsbD_eq
  intro j hj
  simp only [BitVec.getLsbD_or, getLsbD_slotBits _ _ _ hj]
  rcases (by omega : j < 2 ∨ (2 ≤ j ∧ j < 4) ∨ (4 ≤ j ∧ j < 6) ∨ 6 ≤ j) with h₃ | h₂ | h₁ | h₀ <;> grind

theorem encodeGroup_four (i₀ i₁ i₂ i₃ : Instr) :
    encodeGroup [i₀, i₁, i₂, i₃] = .ok (code i₀ ++ code i₁ ++ code i₂ ++ code i₃) := by
  simp [encodeGroup, orSlots, ← slotBits_or_eq_append]

theorem code_slotInstr (b : Byte) (k : Slot) : code (slotInstr b k) = b.extractLsb' (6 - 2 * k.toNat) 2 := by
  rw [slotInstr_eq, code_instr]

/-- The mask `0b11` keeps the remainder modulo 4, which is what a two-bit field holds. -/
theorem setWidth_extractLsb'_two (b : Byte) (n : Nat) :
    (b.extractLsb' n 2).setWidth 8 = (b >>> n) &&& 0b11#8 := by
  apply BitVec.eq_of_toNat_eq
  have hmask : (b.toNat >>> n) &&& 3 = (b.toNat >>> n) % 4 := Nat.and_two_pow_sub_one_eq_mod _ 2
  have hlt : (b.toNat >>> n) % 4 < 256 := by omega
  simpa [hmask] using hlt

end Sys2Proof.Codec

open Sys2Proof

/-- Settles O2, from the four codes' disjoint slots and the shift-and-mask form of a two-bit field. -/
theorem packedByteIsMostSignificantPairFirst : Obligations.PackedByteIsMostSignificantPairFirst := by
  refine ⟨Codec.encodeGroup_four, fun b k => ?_, by decide⟩
  rw [Codec.code_slotInstr]
  exact ⟨rfl, Codec.setWidth_extractLsb'_two b _⟩
end

section
/-! The codec's two bijections (40_codec.md R80, R81): codes and instructions, and a byte's slots by their fields. -/
namespace Sys2Proof.Codec

@[simp] theorem instr_code (i : Instr) : instr (code i) = i := by cases i <;> rfl

/-- `slotInstr_eq` said of an entry of the decoded byte. -/
theorem decodeByte_getElem (b : Byte) (k : Fin 4) : (decodeByte b)[k] = instr (b.extractLsb' (6 - 2 * k.val) 2) :=
  slotInstr_eq b (BitVec.ofFin k)

end Sys2Proof.Codec

open Sys2Proof

/-- Settles O1, from the two tables and the laws `code_instr` and `instr_code`. -/
theorem codesAndInstructionsAreInverse : Obligations.CodesAndInstructionsAreInverse :=
  ⟨by decide, by decide, Codec.code_instr, Codec.instr_code⟩

/-- Settles O3, from the field that each slot decodes. -/
theorem decodeByteSplitsIntoFourSlots : Obligations.DecodeByteSplitsIntoFourSlots :=
  ⟨Codec.decodeByte_getElem, by decide, by decide, by decide, by decide⟩
end

section
/-! `decode_program` (40_codec.md R85; 60_exceptions.md R131): one equation per kind of first character, and from them
by induction on the text which texts decode and where the others fail. -/
namespace Sys2Proof.Codec

/-- The only refusal of `instruction_of`. -/
theorem instructionOf_error {ch : Byte} {e : Error} (h : instructionOf ch = .error e) :
    e = .invalidInstructionChar ch := by
  unfold instructionOf at h
  split_ifs at h
  exact (Except.error.inj h).symm

@[simp] theorem decodeProgramFrom_nil (n : Nat) : decodeProgramFrom n [] = .ok [] := rfl

theorem decodeProgramFrom_cons_of_ok {ch : Byte} {i : Instr} (h : instructionOf ch = .ok i) (n : Nat) (t : List Byte) :
    decodeProgramFrom n (ch :: t) = (i :: ·) <$> decodeProgramFrom (n + 1) t := by
  rw [decodeProgramFrom, h]
  cases decodeProgramFrom (n + 1) t <;> rfl

theorem decodeProgramFrom_cons_of_error {ch : Byte} {e : Error} (h : instructionOf ch = .error e) (n : Nat)
    (t : List Byte) : decodeProgramFrom n (ch :: t) = .error (.invalidInstructionChar ch n) := by
  rw [decodeProgramFrom, h]

/-- A text decodes to `s` exactly when its characters are, in order, those of `s`. -/
theorem decodeProgramFrom_eq_ok_iff (n : Nat) (t : List Byte) (s : List Instr) :
    decodeProgramFrom n t = .ok s ↔ t.map instructionOf = s.map .ok := by
  induction t generalizing n s with
  | nil => cases s <;> simp
  | cons ch t ih =>
    cases h : instructionOf ch with
    | error e =>
      rw [decodeProgramFrom_cons_of_error h]
      cases s <;> simp [h]
    | ok i =>
      rw [decodeProgramFrom_cons_of_ok h]
      cases s with
      | nil => cases decodeProgramFrom (n + 1) t <;> simp
      | cons i' s =>
        rw [List.map_cons, List.map_cons, List.cons.injEq, h, ← ih (n + 1) s]
        cases decodeProgramFrom (n + 1) t <;> simp

/-- `b` stands at index `j` of the text, is invalid, and every character before it is valid. -/
def FirstInvalidAt (t : List Byte) (b : Byte) (j : Nat) : Prop :=
  t[j]? = some b ∧ instructionOf b = .error (.invalidInstructionChar b) ∧
    ∀ k < j, ∀ c, t[k]? = some c → ∃ i, instructionOf c = .ok i

theorem not_firstInvalidAt_nil (b : Byte) (j : Nat) : ¬ FirstInvalidAt [] b j := by
  simp [FirstInvalidAt]

/-- An invalid first character is the first invalid one. -/
theorem firstInvalidAt_cons_of_error {ch : Byte} {e : Error} (h : instructionOf ch = .error e) (t : List Byte)
    (b : Byte) (j : Nat) : FirstInvalidAt (ch :: t) b j ↔ b = ch ∧ j = 0 := by
  obtain rfl := instructionOf_error h
  cases j with
  | zero =>
    suffices b = ch → instructionOf b = .error (.invalidInstructionChar b) by simpa [FirstInvalidAt, eq_comm]
    rintro rfl
    exact h
  | succ j =>
    have hch : ¬ ∃ i, instructionOf ch = .ok i := by simp [h]
    exact iff_of_false (fun ⟨_, _, hbefore⟩ => hch (hbefore 0 j.succ_pos ch rfl)) (by simp)

/-- Behind a valid first character the first invalid one is that of the rest. -/
theorem firstInvalidAt_cons_of_ok {ch : Byte} {i : Instr} (h : instructionOf ch = .ok i) (t : List Byte) (b : Byte)
    (j : Nat) : FirstInvalidAt (ch :: t) b j ↔ ∃ k, j = k + 1 ∧ FirstInvalidAt t b k := by
  cases j with
  | zero =>
    suffices ch = b → instructionOf b ≠ .error (.invalidInstructionChar b) by simpa [FirstInvalidAt]
    rintro rfl
    simp [h]
  | succ j =>
    rw [FirstInvalidAt, Nat.forall_lt_succ_left']
    simp [FirstInvalidAt, h]

/-- The only error of the decoding is the first invalid character, at its index counted from `n`. -/
theorem decodeProgramFrom_eq_error_iff (n : Nat) (t : List Byte) (e : LoadError) :
    decodeProgramFrom n t = .error e ↔ ∃ b j, e = .invalidInstructionChar b (n + j) ∧ FirstInvalidAt t b j := by
  induction t generalizing n with
  | nil => simp [not_firstInvalidAt_nil]
  | cons ch t ih =>
    cases h : instructionOf ch with
    | error e' =>
      simp [decodeProgramFrom_cons_of_error h, firstInvalidAt_cons_of_error h, eq_comm]
    | ok i =>
      have hrest : decodeProgramFrom n (ch :: t) = .error e ↔ decodeProgramFrom (n + 1) t = .error e := by
        rw [decodeProgramFrom_cons_of_ok h]
        cases decodeProgramFrom (n + 1) t <;> simp
      simp [hrest, ih, firstInvalidAt_cons_of_ok h, Nat.succ_add_eq_add_succ]

theorem decodeProgram_eq_invalidInstructionChar_iff (t : List Byte) (b : Byte) (j : Nat) :
    decodeProgram t = .error (.invalidInstructionChar b j) ↔ FirstInvalidAt t b j := by
  simp [decodeProgram, decodeProgramFrom_eq_error_iff]

/-- Decoding has no limit on the length: that is `pack`'s. -/
theorem decodeProgram_ne_programTooLarge (t : List Byte) (n : Nat) :
    decodeProgram t ≠ .error (.programTooLarge n) := by
  simp [decodeProgram, decodeProgramFrom_eq_error_iff]

end Sys2Proof.Codec

namespace Sys2Proof.Machine

theorem load_of_decodeProgram_error (cfg : Config) {text : List Byte} {e : Codec.LoadError}
    (hd : Codec.decodeProgram text = .error e) : load cfg text = .error e := by
  simp [load, hd]

end Sys2Proof.Machine

open Sys2Proof Sys2Proof.Machine

/-- Settles O7, by induction on the text for what decodes and for the first invalid character. -/
theorem decodeProgramReportsTheFirstInvalidCharacter :
    Obligations.DecodeProgramReportsTheFirstInvalidCharacter :=
  ⟨Codec.decodeProgramFrom_eq_ok_iff 0, Codec.decodeProgram_eq_invalidInstructionChar_iff,
    Codec.decodeProgram_ne_programTooLarge, fun cfg _ _ => load_of_decodeProgram_error cfg, rfl, by decide⟩
end

section
/-! `pack` (40_codec.md R86): the image's byte `i` is chunk `i`, which is a valid group for every `i` and the empty
group past the program's end. -/
namespace Sys2Proof.Codec

theorem encodeGroup_chunk (s : List Instr) (i : Nat) : encodeGroup (chunk s i) = .ok (orSlots 0 (chunk s i)) :=
  if_pos (List.length_take_le _ _)

theorem chunk_eq_nil {s : List Instr} {i : Nat} (h : s.length ≤ slots * i) : chunk s i = [] := by
  rw [chunk, List.drop_eq_nil_of_le h, List.take_nil]

/-- The zero fill needs no case of its own: the empty group is `0x00`. -/
theorem pack_of_length_le {s : List Instr} (h : s.length ≤ maxProgram) :
    pack s = .ok (Vector.ofFn fun i : Fin memSize => orSlots 0 (chunk s i.val)) := by
  have hbyte (i : Nat) : (if slots * i < s.length then orSlots 0 (chunk s i) else 0#8) = orSlots 0 (chunk s i) := by
    split
    · rfl
    · next hend => rw [chunk_eq_nil (not_lt.mp hend)]; rfl
  simp only [pack, if_neg (not_lt.mpr h), hbyte]

theorem pack_of_lt_length {s : List Instr} (h : maxProgram < s.length) : pack s = .error (.programTooLarge s.length) :=
  if_pos h

end Sys2Proof.Codec

namespace Sys2Proof.Machine

theorem load_of_pack_error (cfg : Config) {text : List Byte} {s : List Instr} {e : Codec.LoadError}
    (hd : Codec.decodeProgram text = .ok s) (hp : Codec.pack s = .error e) : load cfg text = .error e := by
  simp [load, hd, hp]

end Sys2Proof.Machine

open Sys2Proof Sys2Proof.Machine

/-- Settles O8, from the image written as one group per chunk. -/
theorem packChunksTheProgramAndZeroFills : Obligations.PackChunksTheProgramAndZeroFills := by
  refine ⟨fun s hs => ⟨_, Codec.pack_of_length_le hs, fun i => ?_⟩, fun s => Codec.pack_of_lt_length,
    fun cfg t s hd hs => load_of_pack_error cfg hd (Codec.pack_of_lt_length hs),
    ⟨_, Codec.pack_of_length_le (by decide), ?_, ?_⟩⟩
  · rw [Fin.getElem_fin, Vector.getElem_ofFn]
    refine ⟨fun _ => Codec.encodeGroup_chunk s i.val, fun hend => ?_⟩
    rw [Codec.chunk_eq_nil hend]
    rfl
  all_goals rw [Vector.getElem_ofFn]; decide
end

section
/-! The advance and the linear index of a position (00_scope.md R10; 41_execute.md R112), and what a step may change
of each piece of state (41_execute.md R111), said once for the statements on the step and its instructions. -/
namespace Sys2Proof.Machine

/-! ### Positions -/

theorem posSucc_of_h_eq {p : Pos} (h : p.h = 3#2) : posSucc p = ⟨p.l + 1#9, 0#2⟩ := if_pos h

theorem posSucc_of_h_ne {p : Pos} (h : p.h ≠ 3#2) : posSucc p = ⟨p.l, p.h + 1#2⟩ := if_neg h

theorem State.advance_of_iph_eq {s : State} (h : s.iph = 3#2) :
    s.advance = { s with ipl := s.ipl + 1#9, iph := 0#2 } := by
  rw [State.advance, posSucc_of_h_eq (p := s.ip) h]
  rfl

theorem State.advance_of_iph_ne {s : State} (h : s.iph ≠ 3#2) : s.advance = { s with iph := s.iph + 1#2 } := by
  rw [State.advance, posSucc_of_h_ne (p := s.ip) h]
  rfl

/-- The linear index says in one inequality that the byte address is at most 256 and that slot 0 is the only slot of
address 256. -/
theorem posIndex_le_maxProgram_iff (p : Pos) :
    posIndex p ≤ maxProgram ↔ p.l.toNat ≤ memSize ∧ (p.l = 256#9 → p.h = 0#2) := by
  have hl : p.l = 256#9 ↔ p.l.toNat = 256 := BitVec.toNat_inj.symm
  have hh : p.h = 0#2 ↔ p.h.toNat = 0 := BitVec.toNat_inj.symm
  have hlt := p.h.isLt
  simp only [posIndex, slots, memSize, maxProgram, hl, hh]
  omega

theorem posIndex_posSucc {p : Pos} (h : p.l.toNat ≤ memSize) : posIndex (posSucc p) = posIndex p + 1 := by
  by_cases hh : p.h = 3#2
  · have hl : (p.l + 1#9).toNat = p.l.toNat + 1 := by simp only [memSize] at h; bv_omega
    simp only [posSucc_of_h_eq hh, posIndex, slots, hl, hh, BitVec.toNat_ofNat]
    omega
  · have hs : (p.h + 1#2).toNat = p.h.toNat + 1 := by bv_omega
    simp only [posSucc_of_h_ne hh, posIndex, hs]
    omega

/-! ### What an instruction changes -/

@[simp] theorem raiseFault_isFaulted (c : Condition) (s : State) : (raiseFault c s).isFaulted = true := rfl

/-- A cell, `dp`, the return pointer or `run_state` changes only under the instruction whose rule names it. -/
theorem exec_changes {i : Instr} {s t : State} (h : exec i s = .next t) :
    (∀ a, t.readByte a ≠ s.readByte a → i = .increment ∧ a = s.dp) ∧
      (t.dp ≠ s.dp → i = .shiftRight) ∧
      (t.rp ≠ s.rp → i = .loopOpen) ∧
      (t.runState ≠ s.runState → i = .shiftRight ∧ s.dp = 255#8 ∧
        t.runState = .faulted .dataPointerOutOfRange s.ipl s.iph) := by
  obtain ⟨rfl, rfl⟩ | ⟨rfl, -, rfl⟩ | ⟨rfl, -, rfl⟩ | ⟨rfl, rfl⟩ | ⟨rfl, -, rfl⟩ | ⟨rfl, -, -, rfl⟩ |
    ⟨rfl, hd, -, rfl⟩ := exec_cases h
  · simp
  · simp
  · simp
  · simp [State.readByte_setDataCell]
  · simp
  · simp
  · simp [hd]

theorem exec_config {i : Instr} {s t : State} (h : exec i s = .next t) : t.config = s.config := by
  obtain ⟨-, rfl⟩ | ⟨-, -, rfl⟩ | ⟨-, -, rfl⟩ | ⟨-, rfl⟩ | ⟨-, -, rfl⟩ | ⟨-, -, -, rfl⟩ | ⟨-, -, -, rfl⟩ :=
    exec_cases h <;> rfl

/-- Where an instruction leads: one position on, to the return pointer, or nowhere (41_execute.md R112). -/
theorem exec_ip_cases {i : Instr} {s t : State} (h : exec i s = .next t) :
    t.ip = posSucc s.ip ∨ (i = .loopClose ∧ s.loopCondition = true ∧ t.ip = s.rp) ∨
      (t.isFaulted = true ∧ t.ip = s.ip) := by
  obtain ⟨-, rfl⟩ | ⟨rfl, hc, rfl⟩ | ⟨-, -, rfl⟩ | ⟨-, rfl⟩ | ⟨-, -, rfl⟩ | ⟨-, -, -, rfl⟩ | ⟨-, -, -, rfl⟩ :=
    exec_cases h
  · exact .inl rfl
  · exact .inr (.inl ⟨rfl, hc, rfl⟩)
  · exact .inl rfl
  · exact .inl rfl
  · exact .inl rfl
  · exact .inl rfl
  · exact .inr (.inr ⟨rfl, rfl⟩)

/-! ### What a step changes -/

/-- A step executes, or it leaves memory, `dp`, both pointers and the configuration alone. -/
theorem step_executes_or_frame {s t : State} (h : step s = .next t) :
    (s.executes = true ∧ exec s.fetchInstr s.observed = .next t) ∨
      (s.executes = false ∧ t.mem = s.mem ∧ t.dp = s.dp ∧ t.ip = s.ip ∧ t.rp = s.rp ∧ t.config = s.config) := by
  obtain ⟨-, hcases⟩ := step_cases h
  have hidle (hn : ¬ (s.ipl.toNat < memSize ∧ s.passObserver = some s.observed)) : s.executes = false :=
    Bool.eq_false_iff.mpr fun he => hn (s.executes_iff.mp he).2
  obtain ⟨hl, rfl⟩ | ⟨hl, rfl⟩ | ⟨-, hp, rfl⟩ | hexec := hcases
  · exact .inr ⟨hidle fun ⟨hlt, _⟩ => absurd hlt hl.asymm, rfl, rfl, rfl, rfl, rfl⟩
  · exact .inr ⟨hidle fun ⟨hlt, _⟩ => by simp [hl] at hlt, rfl, rfl, rfl, rfl, rfl⟩
  · exact .inr ⟨hidle fun ⟨_, hsome⟩ => by simp [hp] at hsome, rfl, rfl, rfl, rfl, rfl⟩
  · exact .inl hexec

theorem step_config {s t : State} (h : step s = .next t) : t.config = s.config := by
  obtain ⟨-, hexec⟩ | ⟨-, -, -, -, -, hc⟩ := step_executes_or_frame h
  · simpa using exec_config hexec
  · exact hc

/-- `run_state` changes only by the halt check, by the range check, or by a ShiftRight at `dp = 255`. -/
theorem step_runState_cases {s t : State} (h : step s = .next t) (hne : t.runState ≠ s.runState) :
    (memSize < s.ipl.toNat ∧ t.runState = .faulted .invariantViolation s.ipl s.iph) ∨
      (s.ipl = 256#9 ∧ t.runState = .halted) ∨
      (s.executes = true ∧ s.fetchInstr = .shiftRight ∧ s.dp = 255#8 ∧
        t.runState = .faulted .dataPointerOutOfRange s.ipl s.iph) := by
  obtain ⟨-, hcases⟩ := step_cases h
  obtain ⟨hl, rfl⟩ | ⟨hl, rfl⟩ | ⟨-, -, rfl⟩ | ⟨he, hexec⟩ := hcases
  · exact .inl ⟨hl, rfl⟩
  · exact .inr (.inl ⟨hl, rfl⟩)
  · exact absurd rfl hne
  · obtain ⟨-, -, -, hrun⟩ := exec_changes hexec
    exact .inr (.inr ⟨he, by simpa using hrun (by simpa using hne)⟩)

/-- From a state that meets the invariant a step leads to a position of a byte below 256 or to (256, 0): the advance
adds one to the linear index, and the return pointer is not ahead (41_execute.md R112, R114). -/
theorem step_posIndex_ip_le {s t : State} (hinv : s.Inv) (h : step s = .next t) : posIndex t.ip ≤ maxProgram := by
  have hs : posIndex s.ip ≤ maxProgram := (posIndex_le_maxProgram_iff s.ip).mpr ⟨hinv.iplRange, hinv.endSlot⟩
  obtain ⟨he, hexec⟩ | ⟨-, -, -, hip, -, -⟩ := step_executes_or_frame h
  · obtain hip | ⟨-, -, hip⟩ | ⟨-, hip⟩ := exec_ip_cases hexec
    · obtain ⟨-, hl, -⟩ := s.executes_iff.mp he
      have hlt : posIndex s.ip < maxProgram := by
        have := s.iph.isLt
        simp only [posIndex, slots, memSize, maxProgram, State.ip_l, State.ip_h] at hl ⊢
        omega
      rw [hip, State.observed_ip, posIndex_posSucc (p := s.ip) hl.le]
      exact hlt
    · rw [hip, State.observed_rp]
      exact hinv.returnNotAhead.trans hs
    · rwa [hip, State.observed_ip]
  · rwa [hip]

theorem State.observed_of_not_blocking {s : State} (h : s.config.trace ≠ .blocking) : s.observed = s := by
  rw [State.observed, s.passObserver_of_not_blocking h, Option.getD_some]

theorem State.executes_of_not_blocking {s : State} (hr : s.runState = .running) (hl : s.ipl.toNat < memSize)
    (h : s.config.trace ≠ .blocking) : s.executes = true :=
  s.executes_iff.mpr ⟨hr, hl, by rw [State.observed_of_not_blocking h, s.passObserver_of_not_blocking h]⟩

end Sys2Proof.Machine
end

section
/-! The phases of a step (41_execute.md R102 to R104, R111, R112): the halt check, the fetch, the advance and what a
step changes. -/

open Sys2Proof Sys2Proof.Machine

/-- Settles O16, from the cases in which a step changes `run_state` and the bound on the linear index. -/
theorem haltCheckEndsTheRunAtAddress256 : Obligations.HaltCheckEndsTheRunAtAddress256 := by
  refine ⟨fun s hr hl => ⟨step_of_atEnd s hr hl, by simp [traceOut, hl]⟩, fun s t h ht => ?_, fun s t hinv h => ?_⟩
  · obtain ⟨hr, -⟩ := step_cases h
    obtain ⟨-, hf⟩ | ⟨hl, -⟩ | ⟨-, -, -, hf⟩ := step_runState_cases h (by simp [hr, ht])
    · simp [ht] at hf
    · exact hl
    · simp [ht] at hf
  · exact ((posIndex_le_maxProgram_iff t.ip).mp (step_posIndex_ip_le hinv h)).2

/-- Settles O24, from the one position that an instruction leads to unless it jumped or faulted. -/
theorem advanceCarriesIntoTheNextByte : Obligations.AdvanceCarriesIntoTheNextByte := by
  refine ⟨fun i s t h hjump hfault => ?_, fun s t hinv h =>
    ((posIndex_le_maxProgram_iff t.ip).mp (step_posIndex_ip_le hinv h)).1⟩
  have hip : t.ip = posSucc s.ip := by
    obtain hip | ⟨hi, hc, -⟩ | ⟨hf, -⟩ := exec_ip_cases h
    · exact hip
    · exact absurd ⟨hi, hc⟩ hjump
    · simp [hfault] at hf
  have hcarry (hh : s.iph = 3#2) : t.ipl = s.ipl + 1#9 ∧ t.iph = 0#2 := by
    rw [posSucc_of_h_eq (p := s.ip) hh] at hip
    exact ⟨congrArg Pos.l hip, congrArg Pos.h hip⟩
  refine ⟨fun hh => ?_, hcarry, fun hl hh => ?_⟩
  · rw [posSucc_of_h_ne (p := s.ip) hh] at hip
    exact ⟨congrArg Pos.l hip, congrArg Pos.h hip⟩
  · obtain ⟨htl, hth⟩ := hcarry hh
    have hend : t.ipl = 256#9 := by rw [htl, hl]; rfl
    exact ⟨hend, hth, fun hr => step_of_atEnd t hr hend⟩

/-- Settles O27, from what an instruction changes and the frame of a step that executes none. -/
theorem stepWritesOnlyWhatItsInstructionNames : Obligations.StepWritesOnlyWhatItsInstructionNames := by
  intro s t h
  have hrun (hne : t.runState ≠ s.runState) (hl : s.ipl.toNat ≤ 256) :
      s.ipl = 256#9 ∨ (s.executes = true ∧ s.fetchInstr = .shiftRight ∧ s.dp = 255#8) := by
    obtain ⟨hgt, -⟩ | ⟨hend, -⟩ | ⟨he, hi, hd, -⟩ := step_runState_cases h hne
    · exact absurd hl (not_le.mpr hgt)
    · exact .inl hend
    · exact .inr ⟨he, hi, hd⟩
  obtain ⟨he, hexec⟩ | ⟨-, hmem, hdp, hip, hrp, -⟩ := step_executes_or_frame h
  · obtain ⟨hcell, hdp, hrp, -⟩ := exec_changes hexec
    simp only [State.observed_readByte, State.observed_dp, State.observed_rp] at hcell hdp hrp
    exact ⟨fun a ha => ⟨he, hcell a ha⟩, fun hne => ⟨he, hdp hne⟩, fun hne => ⟨he, hrp hne⟩, fun _ => he, hrun⟩
  · exact ⟨fun a ha => absurd (congrArg (Memory.read · a.toNat) hmem) ha, fun hne => absurd hdp hne,
      fun hne => absurd hrp hne, fun hne => absurd hip hne, hrun⟩

/-- Settles O17, from the step that executes and the field that a slot decodes. -/
theorem stepRunsTheDecodedInstruction : Obligations.StepRunsTheDecodedInstruction := by
  intro s hr hl hb
  refine ⟨?_, Codec.slotInstr_eq s.fetchByte s.iph⟩
  rw [step_of_executes s (State.executes_of_not_blocking hr hl hb), State.observed_of_not_blocking hb]
  rfl
end

section
/-! The loop instructions (41_execute.md R107, R108). -/
namespace Sys2Proof.Machine

theorem State.loopCondition_iff (s : State) : s.loopCondition = true ↔ s.readByte s.dp ≠ 0#8 := bne_iff_ne

theorem State.loopCondition_eq_false_iff (s : State) : s.loopCondition = false ↔ s.readByte s.dp = 0#8 :=
  bne_eq_false_iff_eq

/-- A taken LoopClose whose target is its own position changes nothing (41_execute.md R108). -/
theorem exec_loopClose_self {s : State} (hc : s.loopCondition = true) (hp : s.rp = s.ip) :
    exec .loopClose s = .next s := by
  rw [exec_loopClose_taken s hc, hp]
  rfl

theorem run_of_step_self {s : State} (h : step s = .next s) (n : Nat) : run n s = .next s := by
  induction n with
  | zero => rfl
  | succ n ih => rw [run_succ_of_next n h, ih]

end Sys2Proof.Machine

open Sys2Proof Sys2Proof.Machine

/-- Settles O20, from the two answers of LoopClose; the self loop is a step that answers its own state. -/
theorem loopCloseJumpsWhileTheCellIsNonzero : Obligations.LoopCloseJumpsWhileTheCellIsNonzero := by
  refine ⟨fun s hc => exec_loopClose_taken s (s.loopCondition_iff.mpr hc), fun s hc hh => ?_, fun s hc hh => ?_,
    fun s n he hb hi hc hp => run_of_step_self ?_ n⟩
  · rw [exec_loopClose_not_taken s (s.loopCondition_eq_false_iff.mpr hc), State.advance_of_iph_ne hh]
  · rw [exec_loopClose_not_taken s (s.loopCondition_eq_false_iff.mpr hc), State.advance_of_iph_eq hh]
  · rw [step_of_executes s he, State.observed_of_not_blocking hb, hi]
    exact exec_loopClose_self (s.loopCondition_iff.mpr hc) hp

/-- Settles O19, from the advance in slot 3 and in the other slots. -/
theorem loopOpenSetsTheReturnPointer : Obligations.LoopOpenSetsTheReturnPointer := by
  have hcarry (s : State) (hh : s.iph = 3#2) :
      exec .loopOpen s = .next { s with rpl := s.ipl + 1#9, rph := 0#2, ipl := s.ipl + 1#9, iph := 0#2 } := by
    rw [exec_loopOpen, State.advance_of_iph_eq (s := s.setRp _) hh, posSucc_of_h_eq (p := s.ip) hh]
    rfl
  refine ⟨hcarry, fun s hh => ?_, fun s hl hh => ?_, by decide⟩
  · rw [exec_loopOpen, State.advance_of_iph_ne (s := s.setRp _) hh, posSucc_of_h_ne (p := s.ip) hh]
    rfl
  · rw [hcarry s hh, hl]
    rfl
end

section
/-! The data instructions (41_execute.md R109, R110). Under FAULT every ShiftRight of a run that does not fault adds one
to `dp` as a number, so their count is bounded by the width of `dp`. -/
namespace Sys2Proof.Machine

/-- Unless it faults, a ShiftRight under FAULT never wraps. -/
theorem exec_shiftRight_toNat_dp {s t : State} (hc : s.config.dpOverflow = .fault)
    (h : exec .shiftRight s = .next t) (ht : t.isFaulted = false) : t.dp.toNat = s.dp.toNat + 1 := by
  by_cases hd : s.dp = 255#8
  · rw [exec_shiftRight_fault s hd hc] at h
    cases h
    simp at ht
  · rw [exec_shiftRight_of_ne s hd] at h
    cases h
    simp only [State.advance_dp, State.setDp_dp]
    bv_omega

theorem step_toNat_dp {s t : State} (hc : s.config.dpOverflow = .fault) (h : step s = .next t)
    (ht : t.isFaulted = false) :
    t.dp.toNat = s.dp.toNat + if s.executes = true ∧ s.fetchInstr = .shiftRight then 1 else 0 := by
  obtain ⟨he, hexec⟩ | ⟨he, -, hdp, -, -, -⟩ := step_executes_or_frame h
  · by_cases hi : s.fetchInstr = .shiftRight
    · rw [hi] at hexec
      simpa [he, hi] using exec_shiftRight_toNat_dp (by simpa using hc) hexec ht
    · obtain ⟨-, hdp, -, -⟩ := exec_changes hexec
      have hsame : t.dp = s.dp := by simpa using mt hdp hi
      simp [hi, hsame]
  · simp [he, hdp]

theorem countInstr_trail_succ (i : Instr) (n : Nat) {s t : State} (h : step s = .next t) :
    countInstr i (trail (n + 1) s) =
      countInstr i (trail n t) + if s.executes = true ∧ s.fetchInstr = i then 1 else 0 := by
  rw [trail_succ_of_next n h]
  cases he : s.executes <;> simp [countInstr, List.countP_cons]

/-- A fault is final, so a run that ends without one started without one. -/
theorem isFaulted_eq_false_of_run {n : Nat} {s t : State} (h : run n s = .next t) (ht : t.isFaulted = false) :
    s.isFaulted = false := by
  cases n with
  | zero =>
    cases h
    exact ht
  | succ n =>
    obtain ⟨u, hu, -⟩ := run_succ_cases h
    obtain ⟨hr, -⟩ := step_cases hu
    simp [State.isFaulted, hr]

theorem run_toNat_dp {n : Nat} {s t : State} (hc : s.config.dpOverflow = .fault) (h : run n s = .next t)
    (ht : t.isFaulted = false) : t.dp.toNat = s.dp.toNat + countInstr .shiftRight (trail n s) := by
  induction n generalizing s with
  | zero =>
    cases h
    rfl
  | succ n ih =>
    obtain ⟨u, hu, hr⟩ := run_succ_cases h
    rw [ih (by rw [step_config hu, hc]) hr, step_toNat_dp hc hu (isFaulted_eq_false_of_run hr ht),
      countInstr_trail_succ _ _ hu]
    omega

end Sys2Proof.Machine

open Sys2Proof Sys2Proof.Machine

/-- Settles O22; the bound on the ShiftRights of a run is that of the 8-bit `dp` it ends with. -/
theorem shiftRightAdvancesTheDataPointer : Obligations.ShiftRightAdvancesTheDataPointer := by
  refine ⟨fun s hd => ?_, fun s => exec_shiftRight_fault s, fun s hd hc => ?_, fun n s t hc h ht => ?_⟩
  · have hdp : (s.dp + 1#8).toNat = s.dp.toNat + 1 := by bv_omega
    exact ⟨_, exec_shiftRight_of_ne s hd, hdp, rfl, rfl, fun _ => rfl, rfl, rfl, rfl, rfl⟩
  · exact ⟨_, exec_shiftRight_wrap s hd hc, rfl, rfl, rfl, fun _ => rfl, rfl, rfl, rfl, rfl⟩
  · rw [← run_toNat_dp hc h ht]
    exact Nat.le_of_lt_succ t.dp.isLt

/-- Settles O21; where `dp` is the current byte, the advance within the byte fetches from the cell just written. -/
theorem incrementAddsOneToTheCell : Obligations.IncrementAddsOneToTheCell := by
  intro s
  have hcell (a : Addr) : (s.setDataCell (s.dataCell + 1#8)).advance.readByte a =
      if a = s.dp then s.readByte s.dp + 1#8 else s.readByte a := State.readByte_setDataCell s a _
  have hdp := (hcell s.dp).trans (if_pos rfl)
  refine ⟨_, exec_increment s, hdp, ?_, fun a ha => (hcell a).trans (if_neg ha), rfl, rfl, rfl,
    ⟨rfl, rfl, rfl, rfl⟩, fun hl hh => ?_⟩
  · rw [hdp, BitVec.toNat_add]
    rfl
  · have hback : (s.dp.setWidth 9).setWidth 8 = s.dp := by simp
    simp only [State.fetchInstr, State.fetchByte, State.advance_ipl, State.advance_iph, State.setDataCell_ip,
      posSucc_of_h_ne (p := s.ip) hh, State.ip_l, State.ip_h, hl, hback, hdp]
end

section
/-! The trace mode does not reach the states (60_exceptions.md R146): while the trace does not block, a step, and so a
run, answers the same under every mode, up to the mode itself. -/
namespace Sys2Proof.Machine

/-- An outcome with its next state, if it has one, changed by `f`. -/
def mapNext (f : State → State) (o : Host.Outcome State Fault Refusal) : Host.Outcome State Fault Refusal :=
  match o with
  | .next s => .next (f s)
  | .fault r => .fault r
  | .refused r => .refused r

@[simp] theorem mapNext_next (f : State → State) (s : State) : mapNext f (.next s) = .next (f s) := rfl
@[simp] theorem mapNext_fault (f : State → State) (r : Fault) : mapNext f (.fault r) = .fault r := rfl
@[simp] theorem mapNext_refused (f : State → State) (r : Refusal) : mapNext f (.refused r) = .refused r := rfl

/-- No instruction looks at the trace mode, blocking or not. -/
theorem exec_withTrace (i : Instr) (s : State) (m : TraceMode) :
    exec i (s.withTrace m) = mapNext (·.withTrace m) (exec i s) := by
  obtain ⟨t, h⟩ := exec_total i s
  rw [h, mapNext_next]
  obtain ⟨rfl, rfl⟩ | ⟨rfl, hc, rfl⟩ | ⟨rfl, hc, rfl⟩ | ⟨rfl, rfl⟩ | ⟨rfl, hd, rfl⟩ | ⟨rfl, hd, hc, rfl⟩ |
    ⟨rfl, hd, hc, rfl⟩ := exec_cases h
  · rfl
  · exact exec_loopClose_taken (s.withTrace m) hc
  · exact exec_loopClose_not_taken (s.withTrace m) hc
  · rfl
  · exact exec_shiftRight_of_ne (s.withTrace m) hd
  · exact exec_shiftRight_wrap (s.withTrace m) hd hc
  · exact exec_shiftRight_fault (s.withTrace m) hd hc

theorem step_of_running_not_blocking {s : State} (hr : s.runState = .running) (hl : s.ipl.toNat < memSize)
    (hb : s.config.trace ≠ .blocking) : step s = exec s.fetchInstr s := by
  rw [step_of_executes s (State.executes_of_not_blocking hr hl hb), State.observed_of_not_blocking hb]

theorem step_withTrace {s : State} {m : TraceMode} (hs : s.config.trace ≠ .blocking) (hm : m ≠ .blocking) :
    step (s.withTrace m) = mapNext (·.withTrace m) (step s) := by
  cases hr : s.runState with
  | halted => rw [step_of_halted s hr, step_of_halted (s.withTrace m) hr, mapNext_fault]
  | faulted c l k => rw [step_of_faulted s c l k hr, step_of_faulted (s.withTrace m) c l k hr, mapNext_fault]
  | running =>
    rcases Nat.lt_trichotomy s.ipl.toNat memSize with hl | hl | hl
    · rw [step_of_running_not_blocking hr hl hs, step_of_running_not_blocking (s := s.withTrace m) hr hl hm]
      exact exec_withTrace s.fetchInstr s m
    · have hend : s.ipl = 256#9 := BitVec.eq_of_toNat_eq hl
      rw [step_of_atEnd s hr hend, step_of_atEnd (s.withTrace m) hr hend]
      rfl
    · rw [step_of_out_of_range s hr hl, step_of_out_of_range (s.withTrace m) hr hl]
      rfl

theorem run_withTrace {s : State} {m : TraceMode} (hs : s.config.trace ≠ .blocking) (hm : m ≠ .blocking) (n : Nat) :
    run n (s.withTrace m) = mapNext (·.withTrace m) (run n s) := by
  induction n generalizing s with
  | zero => rfl
  | succ n ih =>
    have hstep := step_withTrace hs hm
    cases h : step s with
    | next u =>
      rw [h, mapNext_next] at hstep
      rw [run_succ_of_next n h, run_succ_of_next n hstep]
      exact ih (by rwa [step_config h])
    | fault r => simp [run, hstep, h]
    | refused r => simp [run, hstep, h]

end Sys2Proof.Machine

open Sys2Proof Sys2Proof.Machine

/-- Settles O46, from the run under another mode that does not block. -/
theorem tracingLeavesTheStatesTheSame : Obligations.TracingLeavesTheStatesTheSame := by
  intro n s
  have hrun : run n (s.withTrace .observe) = mapNext (·.withTrace .observe) (run n (s.withTrace .off)) :=
    run_withTrace (s := s.withTrace .off) (m := .observe) nofun nofun n
  exact ⟨fun t h => by rw [hrun, h, mapNext_next], fun f h => by rw [hrun, h, mapNext_fault]⟩
end

section
/-! The load errors (60_exceptions.md R131, R132; D7): a load fails with one of two errors, that of the decoding first,
and only a text of valid characters comes to be counted. -/
namespace Sys2Proof.Codec

/-- The texts that decode are those of valid characters. -/
theorem exists_decodeProgram_eq_ok_iff (t : List Byte) :
    (∃ s, decodeProgram t = .ok s) ↔ ∀ b ∈ t, ∃ i, instructionOf b = .ok i :=
  calc
    _ ↔ t.map instructionOf ∈ Set.range (List.map .ok) :=
      exists_congr fun s => (decodeProgramFrom_eq_ok_iff 0 t s).trans eq_comm
    _ ↔ _ := by
      rw [Set.range_list_map, Set.mem_ofPred_eq, List.forall_mem_map]
      simp only [Set.mem_range, eq_comm]

/-- One instruction for each character. -/
theorem length_of_decodeProgram {t : List Byte} {s : List Instr} (h : decodeProgram t = .ok s) :
    s.length = t.length := by
  simpa using (congrArg List.length ((decodeProgramFrom_eq_ok_iff 0 t s).mp h)).symm

theorem pack_eq_programTooLarge_iff (s : List Instr) (n : Nat) :
    pack s = .error (.programTooLarge n) ↔ s.length = n ∧ maxProgram < n := by
  rcases le_or_gt s.length maxProgram with hle | hlt
  · rw [pack_of_length_le hle]
    exact iff_of_false nofun fun ⟨hn, hlt⟩ => absurd hlt (not_lt.mpr (hn ▸ hle))
  · rw [pack_of_lt_length hlt, Except.error.injEq, LoadError.programTooLarge.injEq]
    exact ⟨fun hn => ⟨hn, hn ▸ hlt⟩, And.left⟩

end Sys2Proof.Codec

namespace Sys2Proof.Machine

/-- A load's error is that of its decoding, or that of packing the decoded program. -/
theorem load_eq_error_iff (cfg : Config) (text : List Byte) (e : Codec.LoadError) :
    load cfg text = .error e ↔ Codec.decodeProgram text = .error e ∨
      ∃ s, Codec.decodeProgram text = .ok s ∧ Codec.pack s = .error e := by
  cases hd : Codec.decodeProgram text with
  | error e' => simp [load_of_decodeProgram_error cfg hd]
  | ok s =>
    cases hp : Codec.pack s with
    | error e' => simp [load_of_pack_error cfg hd hp, hp]
    | ok img => simp [load_of_ok cfg hd hp, hp]

end Sys2Proof.Machine

open Sys2Proof Sys2Proof.Machine

/-- Settles O11: the decoding never counts, and the packing counts what it decoded. -/
theorem programTooLargeOnlyForValidTexts : Obligations.ProgramTooLargeOnlyForValidTexts := by
  refine ⟨fun cfg t n => ?_, fun cfg t hbad => ?_⟩
  · rw [load_eq_error_iff, or_iff_right (Codec.decodeProgram_ne_programTooLarge t n),
      ← Codec.exists_decodeProgram_eq_ok_iff, ← exists_and_right]
    refine exists_congr fun s => and_congr_right fun hd => ?_
    rw [Codec.pack_eq_programTooLarge_iff, Codec.length_of_decodeProgram hd]
  · cases hd : Codec.decodeProgram t with
    | error e =>
      obtain ⟨b, j, rfl, -⟩ := (Codec.decodeProgramFrom_eq_error_iff 0 t e).mp hd
      exact ⟨b, _, load_of_decodeProgram_error cfg hd⟩
    | ok s =>
      obtain ⟨b, hb, hinvalid⟩ := hbad
      obtain ⟨i, hi⟩ := (Codec.exists_decodeProgram_eq_ok_iff t).mp ⟨s, hd⟩ b hb
      exact absurd hi (hinvalid i)
end

section
/-! The one run-time fault (60_exceptions.md R133; D3). -/
namespace Sys2Proof.Machine

theorem step_shiftRight_fault {s : State} (he : s.executes = true) (hi : s.fetchInstr = .shiftRight)
    (hd : s.dp = 255#8) (hc : s.config.dpOverflow = .fault) :
    step s = .next (raiseFault .dataPointerOutOfRange s.observed) := by
  rw [step_of_executes s he, hi, exec_shiftRight_fault s.observed (by simpa using hd) (by simpa using hc)]

theorem step_shiftRight_wrap {s : State} (he : s.executes = true) (hi : s.fetchInstr = .shiftRight)
    (hd : s.dp = 255#8) (hc : s.config.dpOverflow = .wrap) : step s = .next (s.observed.setDp 0#8).advance := by
  rw [step_of_executes s he, hi, exec_shiftRight_wrap s.observed (by simpa using hd) (by simpa using hc)]

end Sys2Proof.Machine

open Sys2Proof Sys2Proof.Machine

/-- Settles O23: taking the fault writes `run_state` alone, and under WRAP the same ShiftRight advances instead. -/
theorem dataPointerFaultIsPrecise : Obligations.DataPointerFaultIsPrecise := by
  refine ⟨fun s he hi hd hc => ⟨_, step_shiftRight_fault he hi hd hc, ?_⟩, fun s t l h hc hstep hf => ?_⟩
  · simp [hd, statusOut, conditionCode]
  · obtain ⟨hr, -⟩ := step_cases hstep
    obtain ⟨-, ht⟩ | ⟨-, ht⟩ | ⟨he, hi, hd, -⟩ := step_runState_cases hstep (by simp [hr, hf])
    · simp [ht] at hf
    · simp [ht] at hf
    · rw [step_shiftRight_wrap he hi hd hc] at hstep
      cases hstep
      simp [hr] at hf
end

section
/-! The trace port and the status output (60_exceptions.md R144, R151). -/
namespace Sys2Proof.Machine

theorem traceOut_of_presents {s : State} (he : traceEnable s.config = true) (hr : s.runState = .running)
    (hl : s.ipl.toNat < memSize) (hw : s.traceWait = false) : traceOut s = some s.snapshot :=
  if_pos ⟨he, hr, hl, hw⟩

theorem traceOut_of_disabled {s : State} (he : traceEnable s.config = false) : traceOut s = none := by
  simp [traceOut, he]

theorem traceOut_of_atEnd {s : State} (hl : s.ipl = 256#9) : traceOut s = none := by
  simp [traceOut, hl]

end Sys2Proof.Machine

open Sys2Proof Sys2Proof.Machine

/-- Settles O44, one case of the trace output for each clause. -/
theorem traceSnapshotShowsTheStateBeforeExecution : Obligations.TraceSnapshotShowsTheStateBeforeExecution :=
  ⟨fun _ => traceOut_of_presents, fun _ => traceOut_of_disabled, fun _ => traceOut_of_atEnd⟩

/-- Settles O49, by the three run states. -/
theorem statusOutputEncodesRunState : Obligations.StatusOutputEncodesRunState := by
  refine ⟨rfl, rfl, fun _ _ _ => rfl, fun r => ?_⟩
  cases r with
  | running => decide
  | halted => decide
  | faulted c l h => exact (by decide : (0b10#2 : BitVec 2) ≠ 0b11#2)
end

section
/-! What a load leaves (70_reset_and_hazards.md R161, R163): which texts load, and the image that the memory holds. -/
namespace Sys2Proof.Codec

/-- The programs that pack are those of at most 1024 instructions. -/
theorem exists_pack_eq_ok_iff (s : List Instr) : (∃ img, pack s = .ok img) ↔ s.length ≤ maxProgram := by
  rcases le_or_gt s.length maxProgram with hle | hlt
  · exact iff_of_true ⟨_, pack_of_length_le hle⟩ hle
  · rw [pack_of_lt_length hlt]
    exact iff_of_false nofun (not_le.mpr hlt)

end Sys2Proof.Codec

namespace Sys2Proof.Machine

/-- The texts that load are those that decode, so of valid characters, and are short enough to pack. -/
theorem exists_load_eq_ok_iff (cfg : Config) (text : List Byte) :
    (∃ st, load cfg text = .ok st) ↔
      (∀ b ∈ text, ∃ i, Codec.instructionOf b = .ok i) ∧ text.length ≤ maxProgram := by
  rw [← Codec.exists_decodeProgram_eq_ok_iff]
  constructor
  · rintro ⟨st, h⟩
    obtain ⟨s, img, hd, hp, -⟩ := load_cases h
    exact ⟨⟨s, hd⟩, Codec.length_of_decodeProgram hd ▸ (Codec.exists_pack_eq_ok_iff s).mp ⟨img, hp⟩⟩
  · rintro ⟨⟨s, hd⟩, hlen⟩
    obtain ⟨img, hp⟩ := (Codec.exists_pack_eq_ok_iff s).mpr ((Codec.length_of_decodeProgram hd).trans_le hlen)
    exact ⟨_, load_of_ok cfg hd hp⟩

/-- The image that a load writes is the image that the read-out gives (70_reset_and_hazards.md R165). -/
@[simp] theorem Memory.toImage_ofImage (img : Codec.Image) : (Memory.ofImage img).toImage = img :=
  Vector.ext fun i h => (Memory.getElem_toImage _ i h).trans (Memory.read_ofImage img ⟨i, h⟩)

end Sys2Proof.Machine

open Sys2Proof Sys2Proof.Machine

/-- Settles O12: a load that succeeds is the program's image started. -/
theorem loadGivesTheResetState : Obligations.LoadGivesTheResetState := by
  refine ⟨exists_load_eq_ok_iff, fun cfg t st h => ?_⟩
  obtain ⟨s, img, hd, hp, rfl⟩ := load_cases h
  exact ⟨⟨s, img, hd, hp, start_readByte cfg img, Memory.toImage_ofImage img⟩, rfl, rfl, rfl, rfl, rfl, rfl, rfl, rfl⟩
end

section
/-! The return pointer along a run (70_reset_and_hazards.md R171; 41_execute.md R107, R108): only an executed LoopOpen
writes it, so the last one of the trail decides what it holds. -/
namespace Sys2Proof.Machine

/-- An executed LoopOpen sets the return pointer to the position after it, and nothing else changes it. -/
theorem step_rp {s t : State} (h : step s = .next t) :
    t.rp = if s.executes = true ∧ s.fetchInstr = .loopOpen then posSucc s.ip else s.rp := by
  obtain ⟨he, hexec⟩ | ⟨he, -, -, -, hrp, -⟩ := step_executes_or_frame h
  · by_cases hi : s.fetchInstr = .loopOpen
    · rw [hi, exec_loopOpen] at hexec
      cases hexec
      simp [he, hi]
    · obtain ⟨-, -, hrp, -⟩ := exec_changes hexec
      simpa [hi] using mt hrp hi
  · simp [he, hrp]

/-- A LoopOpen of the later steps is more recent than one of the first step. -/
theorem lastOpen_trail_succ (n : Nat) {s t : State} (h : step s = .next t) :
    lastOpen (trail (n + 1) s) =
      (lastOpen (trail n t)).or (if s.executes = true ∧ s.fetchInstr = .loopOpen then some s else none) := by
  rw [trail_succ_of_next n h]
  by_cases hopen : s.executes = true ∧ s.fetchInstr = .loopOpen
  · obtain ⟨he, hi⟩ := hopen
    simp [lastOpen, he, hi, List.getLast?_cons, Option.or_some]
  · rw [if_neg hopen, Option.or_none]
    cases he : s.executes with
    | false => rfl
    | true =>
      have hi : s.fetchInstr ≠ .loopOpen := fun hi => hopen ⟨he, hi⟩
      simp [lastOpen, hi]

theorem run_rp {n : Nat} {s t : State} (h : run n s = .next t) :
    t.rp = ((lastOpen (trail n s)).map fun u => posSucc u.ip).getD s.rp := by
  induction n generalizing s with
  | zero =>
    cases h
    rfl
  | succ n ih =>
    obtain ⟨u, hu, hr⟩ := run_succ_cases h
    rw [ih hr, step_rp hu, lastOpen_trail_succ n hu]
    cases lastOpen (trail n u) with
    | some v => rfl
    | none => split <;> rfl

/-- A taken LoopClose leads to the return pointer (41_execute.md R108). -/
theorem step_ip_of_takesJump {s t : State} (he : s.executes = true) (hj : s.takesJump = true)
    (h : step s = .next t) : t.ip = s.rp := by
  obtain ⟨hi, hc⟩ : s.fetchInstr = .loopClose ∧ s.loopCondition = true := by simpa [State.takesJump] using hj
  rw [step_of_executes s he, hi, exec_loopClose_taken s.observed (by simpa using hc)] at h
  cases h
  simp

end Sys2Proof.Machine

open Sys2Proof Sys2Proof.Machine

/-- Settles O33, by induction on the steps of the run; a taken LoopClose then goes to the return pointer. -/
theorem returnPointerFollowsTheLastLoopOpen : Obligations.ReturnPointerFollowsTheLastLoopOpen :=
  ⟨fun _ _ _ => run_rp, fun _ _ _ _ hrun he hj hstep => (step_ip_of_takesJump he hj hstep).trans (run_rp hrun)⟩
end

section
/-! A group in its byte (40_codec.md R82, section 6): field `k` of the byte is the code of instruction `k`, or `00` past
the group's end; from that the round trips of a group and of a byte. -/
namespace Sys2Proof.Codec

theorem extract_slotBits (c : Code) {j k : Nat} (hj : j < slots) (hk : k < slots) :
    (slotBits c j).extractLsb' (6 - 2 * k) 2 = if k = j then c else 0#2 := by
  simp only [slots] at hj hk
  apply BitVec.eq_of_getLsbD_eq
  intro b hb
  rw [BitVec.getLsbD_extractLsb', getLsbD_slotBits c j _ (by omega)]
  rcases Nat.lt_trichotomy k j with hlt | rfl | hgt
  · have hhigh : c.getLsbD (6 - 2 * k + b - (6 - 2 * j)) = false := BitVec.getLsbD_of_ge _ _ (by omega)
    simp [hhigh, hlt.ne]
  · simp [hb]
  · have hlow : ¬ 6 - 2 * j ≤ 6 - 2 * k + b := by omega
    simp [hlow, hgt.ne']

/-- The loop from slot `j` on leaves the slots below `j` empty. -/
theorem extract_orSlots (s : List Instr) {j k : Nat} (hs : j + s.length ≤ slots) (hk : k < slots) :
    (orSlots j s).extractLsb' (6 - 2 * k) 2 = if k < j then 0#2 else (s[k - j]?.map code).getD 0#2 := by
  induction s generalizing j with
  | nil => simp [orSlots]
  | cons i s ih =>
    rw [List.length_cons] at hs
    rw [orSlots, BitVec.extractLsb'_or, extract_slotBits _ (by omega) hk, ih (by omega)]
    rcases Nat.lt_trichotomy k j with hlt | rfl | hgt
    · simp [hlt, hlt.ne, hlt.trans j.lt_succ_self]
    · simp
    · have hnext : k - j = k - (j + 1) + 1 := by omega
      simp [hnext, hgt.ne', hgt.not_gt, not_lt.mpr (Nat.succ_le_of_lt hgt)]

theorem extract_orSlots_zero {s : List Instr} (hs : s.length ≤ slots) {k : Nat} (hk : k < slots) :
    (orSlots 0 s).extractLsb' (6 - 2 * k) 2 = (s[k]?.map code).getD 0#2 := by
  simp [extract_orSlots s (j := 0) (by omega) hk]

/-- A slot past the group's end decodes as LoopOpen, whose code is `00`. -/
theorem slotInstr_orSlots {s : List Instr} (hs : s.length ≤ slots) (k : Slot) :
    slotInstr (orSlots 0 s) k = s[k.toNat]?.getD .loopOpen := by
  rw [slotInstr_eq, extract_orSlots_zero hs k.isLt]
  cases s[k.toNat]? with
  | none => rfl
  | some i => exact instr_code i

theorem encodeGroup_of_length_le {s : List Instr} (hs : s.length ≤ slots) : encodeGroup s = .ok (orSlots 0 s) :=
  if_pos hs

theorem encodeGroup_of_lt_length {s : List Instr} (hs : slots < s.length) :
    encodeGroup s = .error (.groupTooLong s.length) := if_neg (not_le.mpr hs)

theorem decodeByte_orSlots {s : List Instr} (hs : s.length ≤ slots) :
    (decodeByte (orSlots 0 s)).toList = s ++ List.replicate (slots - s.length) .loopOpen := by
  apply List.ext_getElem
  · simp [hs]
  · intro k hk hk'
    have hslot := slotInstr_orSlots hs (BitVec.ofNatLT k (by simpa using hk))
    rw [Vector.getElem_toList]
    refine hslot.trans ?_
    by_cases hks : k < s.length
    · simp [hks]
    · simp [hks, List.getElem_append_right (not_lt.mp hks)]

/-- A byte is the concatenation of its four fields. -/
theorem append_extractLsb'_eq_self (b : Byte) :
    b.extractLsb' 6 2 ++ b.extractLsb' 4 2 ++ b.extractLsb' 2 2 ++ b.extractLsb' 0 2 = b := by
  rw [BitVec.extractLsb'_append_extractLsb'_eq_extractLsb' (rfl : 6 = 4 + 2),
    BitVec.extractLsb'_append_extractLsb'_eq_extractLsb' (rfl : 4 = 2 + 2),
    BitVec.extractLsb'_append_extractLsb'_eq_extractLsb' (rfl : 2 = 0 + 2)]
  exact BitVec.extractLsb'_eq_self

theorem encodeGroup_decodeByte (b : Byte) : encodeGroup (decodeByte b).toList = .ok b := by
  refine (encodeGroup_four _ _ _ _).trans ?_
  simp only [code_instr, append_extractLsb'_eq_self]

end Sys2Proof.Codec

open Sys2Proof

/-- Settles O4, from the field that each slot of a group's byte holds. -/
theorem encodeGroupFillsSlotsAndRefusesFive : Obligations.EncodeGroupFillsSlotsAndRefusesFive :=
  ⟨fun _ hs => ⟨_, Codec.encodeGroup_of_length_le hs, fun k => Codec.extract_orSlots_zero hs k.isLt⟩,
    fun _ hs => Codec.encodeGroup_of_lt_length hs, rfl⟩

/-- Settles O5: a group's byte decodes slot by slot, and a byte is the concatenation of its own four codes. -/
theorem groupRoundTripPadsWithLoopOpen : Obligations.GroupRoundTripPadsWithLoopOpen :=
  ⟨fun _ hs => ⟨_, Codec.encodeGroup_of_length_le hs, Codec.decodeByte_orSlots hs⟩, Codec.encodeGroup_decodeByte⟩
end

section
/-! The image as the program padded with LoopOpens (40_codec.md section 6; 30_encoding.md section 2): byte `i` decodes
to chunk `i` of the padded program, and the chunks in order are the program again. -/
namespace Sys2Proof.Codec

theorem length_chunk_le (s : List Instr) (i : Nat) : (chunk s i).length ≤ slots := List.length_take_le _ _

/-- Instruction `k` of chunk `i` stands at linear index `4 * i + k`. -/
theorem getElem?_chunk (s : List Instr) (i : Nat) {k : Nat} (hk : k < slots) :
    (chunk s i)[k]? = s[slots * i + k]? := by
  rw [chunk, List.getElem?_take_of_lt hk, List.getElem?_drop]

/-- Padding a program pads each chunk. -/
theorem chunk_append_replicate (s : List Instr) (n i : Nat) (x : Instr) :
    chunk (s ++ List.replicate n x) i =
      chunk s i ++ List.replicate (min (slots - (s.length - slots * i)) (n - (slots * i - s.length))) x := by
  rw [chunk, List.drop_append, List.take_append, List.drop_replicate, List.take_replicate, List.length_drop, chunk]

theorem flatMap_chunk_range (s : List Instr) (n : Nat) : (List.range n).flatMap (chunk s) = s.take (slots * n) := by
  induction n with
  | zero => simp
  | succ n ih =>
    rw [List.range_succ, List.flatMap_append, ih, List.flatMap_singleton, Nat.mul_succ, List.take_add]
    rfl

/-- `s` followed by LoopOpens up to 1024. -/
def padded (s : List Instr) : List Instr := s ++ List.replicate (maxProgram - s.length) .loopOpen

theorem length_padded {s : List Instr} (hs : s.length ≤ maxProgram) : (padded s).length = maxProgram := by
  simp [padded, hs]

theorem decodeByte_chunk {s : List Instr} (hs : s.length ≤ maxProgram) {i : Nat} (hi : i < memSize) :
    (decodeByte (orSlots 0 (chunk s i))).toList = chunk (padded s) i := by
  rw [decodeByte_orSlots (length_chunk_le s i), padded, chunk_append_replicate]
  congr 2
  simp only [chunk, List.length_take, List.length_drop, slots, memSize, maxProgram] at *
  omega

theorem pack_eq_ok {s : List Instr} {img : Image} (h : pack s = .ok img) :
    s.length ≤ maxProgram ∧ img = Vector.ofFn fun i : Fin memSize => orSlots 0 (chunk s i.val) := by
  have hs : s.length ≤ maxProgram := (exists_pack_eq_ok_iff s).mp ⟨img, h⟩
  exact ⟨hs, Except.ok.inj (h.symm.trans (pack_of_length_le hs))⟩

theorem unpack_of_pack {s : List Instr} {img : Image} (h : pack s = .ok img) : unpack img = padded s := by
  obtain ⟨hs, rfl⟩ := pack_eq_ok h
  calc
    _ = (List.finRange memSize).flatMap fun i => (decodeByte (orSlots 0 (chunk s i.val))).toList := by
      rw [unpack, Vector.toList_ofFn, List.ofFn_eq_map, List.flatMap_map]
    _ = (List.finRange memSize).flatMap fun i => chunk (padded s) i.val :=
      List.flatMap_congr fun i _ => decodeByte_chunk hs i.isLt
    _ = ((List.finRange memSize).map Fin.val).flatMap (chunk (padded s)) := by rw [List.flatMap_map]
    _ = (padded s).take (slots * memSize) := by rw [List.map_coe_finRange_eq_range, flatMap_chunk_range]
    _ = padded s := List.take_of_length_le (length_padded hs).le

@[simp] theorem slotBits_code_loopOpen (k : Nat) : slotBits (code .loopOpen) k = 0#8 := by simp [slotBits, code]

theorem orSlots_replicate_loopOpen (j n : Nat) : orSlots j (List.replicate n .loopOpen) = 0#8 := by
  induction n generalizing j with
  | zero => rfl
  | succ n ih => rw [List.replicate_succ, orSlots, ih, slotBits_code_loopOpen, BitVec.or_zero]

theorem orSlots_append_replicate (s : List Instr) (j n : Nat) :
    orSlots j (s ++ List.replicate n .loopOpen) = orSlots j s := by
  induction s generalizing j with
  | nil => exact orSlots_replicate_loopOpen j n
  | cons i s ih => rw [List.cons_append, orSlots, ih, orSlots]

theorem pack_append_replicate {s : List Instr} {n : Nat} (h : s.length + n ≤ maxProgram) :
    pack (s ++ List.replicate n .loopOpen) = pack s := by
  rw [pack_of_length_le (by simpa using h), pack_of_length_le (by omega)]
  simp only [chunk_append_replicate, orSlots_append_replicate]

end Sys2Proof.Codec

namespace Sys2Proof.Machine

/-- Dropping the top bit of a byte address below 256 keeps its value. -/
theorem toNat_setWidth_of_lt {l : PosLow} (h : l.toNat < memSize) : (l.setWidth 8).toNat = l.toNat := by
  rw [BitVec.toNat_setWidth]
  exact Nat.mod_eq_of_lt h

/-- In a loaded memory, position `p` below the end holds the instruction at index `P(p)` of the packed program. -/
theorem fetchInstr_setIp_start (cfg : Config) {s : List Instr} {img : Codec.Image} (h : Codec.pack s = .ok img)
    {p : Pos} (hp : p.l.toNat < memSize) : ((start cfg img).setIp p).fetchInstr = s[posIndex p]?.getD .loopOpen := by
  obtain ⟨-, rfl⟩ := Codec.pack_eq_ok h
  have hindex : slots * (p.l.setWidth 8).toNat + p.h.toNat = posIndex p := by
    rw [toNat_setWidth_of_lt hp, posIndex]
  rw [State.fetchInstr, State.fetchByte, State.setIp_readByte, State.setIp_ipl, start_readByte, Vector.getElem_ofFn,
    Codec.slotInstr_orSlots (Codec.length_chunk_le _ _), State.setIp_iph, Codec.getElem?_chunk _ _ p.h.isLt]
  exact congrArg (s[·]?.getD .loopOpen) hindex

end Sys2Proof.Machine

open Sys2Proof Sys2Proof.Machine

/-- Settles O9: the image's bytes decode to the chunks of the padded program. -/
theorem imageReadsBackAsTheProgram : Obligations.ImageReadsBackAsTheProgram :=
  fun _ _ h => ⟨(Codec.pack_eq_ok h).1, Codec.unpack_of_pack h⟩

/-- Settles O10: the padding is LoopOpens, which are code `00`. -/
theorem packForgetsTrailingLoopOpens : Obligations.PackForgetsTrailingLoopOpens :=
  fun _ _ => Codec.pack_append_replicate

/-- Settles O14, from the slot that each index of the packed program has. -/
theorem loadedProgramIsFetchedInOrder : Obligations.LoadedProgramIsFetchedInOrder := by
  intro cfg t st h
  obtain ⟨s, img, hd, hp, rfl⟩ := load_cases h
  exact ⟨s, hd, fun p => fetchInstr_setIp_start cfg hp⟩
end

section
/-! What an instruction and a step keep of the control state (10_state.md section 5): the frames of single
instructions, the trace wait and the configuration. -/
namespace Sys2Proof.Machine

theorem exec_traceWait {i : Instr} {s t : State} (h : exec i s = .next t) : t.traceWait = s.traceWait := by
  obtain ⟨-, rfl⟩ | ⟨-, -, rfl⟩ | ⟨-, -, rfl⟩ | ⟨-, rfl⟩ | ⟨-, -, rfl⟩ | ⟨-, -, -, rfl⟩ | ⟨-, -, -, rfl⟩ :=
    exec_cases h <;> rfl

theorem exec_continueIn {i : Instr} {s t : State} (h : exec i s = .next t) : t.continueIn = s.continueIn := by
  obtain ⟨-, rfl⟩ | ⟨-, -, rfl⟩ | ⟨-, -, rfl⟩ | ⟨-, rfl⟩ | ⟨-, -, rfl⟩ | ⟨-, -, -, rfl⟩ | ⟨-, -, -, rfl⟩ :=
    exec_cases h <;> rfl

/-- An instruction keeps `run_state`, or it is the ShiftRight that faults. -/
theorem exec_runState_or_fault {i : Instr} {s t : State} (h : exec i s = .next t) :
    t.runState = s.runState ∨ (i = .shiftRight ∧ s.dp = 255#8 ∧ s.config.dpOverflow = .fault ∧
      t = raiseFault .dataPointerOutOfRange s) := by
  obtain ⟨-, rfl⟩ | ⟨-, -, rfl⟩ | ⟨-, -, rfl⟩ | ⟨-, rfl⟩ | ⟨-, -, rfl⟩ | ⟨-, -, -, rfl⟩ | hfault := exec_cases h
  · exact .inl rfl
  · exact .inl rfl
  · exact .inl rfl
  · exact .inl rfl
  · exact .inl rfl
  · exact .inl rfl
  · exact .inr hfault

/-- Only ShiftRight can fault, so every other instruction keeps all of the control state. -/
theorem exec_sameControl {i : Instr} {s t : State} (h : exec i s = .next t) (hi : i ≠ .shiftRight) :
    SameControl s t := by
  refine ⟨?_, exec_traceWait h, exec_config h, exec_continueIn h⟩
  obtain hrun | ⟨hs, -⟩ := exec_runState_or_fault h
  · exact hrun
  · exact absurd hs hi

theorem exec_sameCells {i : Instr} {s t : State} (h : exec i s = .next t) (hi : i ≠ .increment) : SameCells s t := by
  intro a
  obtain ⟨hcell, -⟩ := exec_changes h
  by_contra hne
  exact hi (hcell a hne).1

theorem exec_dp {i : Instr} {s t : State} (h : exec i s = .next t) (hi : i ≠ .shiftRight) : t.dp = s.dp := by
  obtain ⟨-, hdp, -⟩ := exec_changes h
  exact of_not_not (mt hdp hi)

theorem exec_rp {i : Instr} {s t : State} (h : exec i s = .next t) (hi : i ≠ .loopOpen) : t.rp = s.rp := by
  obtain ⟨-, -, hrp, -⟩ := exec_changes h
  exact of_not_not (mt hrp hi)

end Sys2Proof.Machine

open Sys2Proof Sys2Proof.Machine

/-- Settles O25, from what each instruction keeps; where ShiftRight changes `run_state` it faulted. -/
theorem nonStoringInstructionsKeepTheRest : Obligations.NonStoringInstructionsKeepTheRest := by
  refine ⟨fun s t h => ⟨exec_sameCells h nofun, exec_dp h nofun, exec_sameControl h nofun⟩,
    fun s t h => ⟨exec_sameCells h nofun, exec_dp h nofun, exec_rp h nofun, exec_sameControl h nofun⟩,
    fun s t h => ⟨exec_sameCells h nofun, exec_rp h nofun, exec_traceWait h, exec_config h, exec_continueIn h, ?_⟩⟩
  obtain hrun | ⟨-, hd, hc, rfl⟩ := exec_runState_or_fault h
  · exact .inl hrun
  · exact .inr ⟨hd, hc, rfl, rfl⟩

/-- Settles O26: a cell that an instruction changes is at `dp`. -/
theorem incrementStoresOneByteAtDp : Obligations.IncrementStoresOneByteAtDp := by
  refine fun s t h => ⟨fun a ha => ?_, exec_dp h nofun, exec_rp h nofun, exec_sameControl h nofun⟩
  obtain ⟨hcell, -⟩ := exec_changes h
  exact of_not_not (mt (fun hne => (hcell a hne).2) ha)

/-- Settles O28, by induction on the steps of the run. -/
theorem configurationIsFixedForTheRun : Obligations.ConfigurationIsFixedForTheRun :=
  fun n s t => run_induction (P := fun u => u.config = s.config) (fun _ _ hu h => (step_config h).trans hu) n s t rfl
end

section
/-! The invariant `State.Inv` (41_execute.md section 4; 60_exceptions.md section 1): how a RUNNING state that does not
wait meets it, and that a step keeps it. -/
namespace Sys2Proof.Machine

/-- A RUNNING state that does not wait meets the invariant by its memory and its two positions alone. -/
theorem State.Inv.of_running {s : State} (hm : s.mem.wf) (hip : posIndex s.ip ≤ maxProgram)
    (hrp : posIndex s.rp ≤ posIndex s.ip) (hw : s.traceWait = false) (hr : s.runState = .running) : s.Inv := by
  obtain ⟨hl, hend⟩ := (posIndex_le_maxProgram_iff s.ip).mp hip
  exact ⟨hm, hl, hend, hrp, by simp [hw], by simp [hr], by simp [hr]⟩

/-- A state meets the invariant after a fault by what it met before and by the fault's own condition. -/
theorem State.Inv.raiseFault {s : State} (hs : s.Inv) (hl : s.ipl.toNat < memSize) (hw : s.traceWait = false)
    (hi : s.fetchInstr = .shiftRight) (hd : s.dp = 255#8) (hc : s.config.dpOverflow = .fault) :
    (raiseFault .dataPointerOutOfRange s).Inv where
  memory := hs.memory
  iplRange := hs.iplRange
  endSlot := hs.endSlot
  returnNotAhead := hs.returnNotAhead
  waitBlocking := by simp [hw]
  haltedAtEnd := by simp
  faultPrecise := by
    rintro c l h hf
    obtain ⟨rfl, rfl, rfl⟩ := RunState.faulted.inj hf
    exact ⟨rfl, rfl, rfl, hd, hc, hl, hi⟩

theorem State.Inv.halt {s : State} (hs : s.Inv) (hl : s.ipl = 256#9) : s.halt.Inv where
  memory := hs.memory
  iplRange := hs.iplRange
  endSlot := hs.endSlot
  returnNotAhead := hs.returnNotAhead
  waitBlocking hw := by
    obtain ⟨-, -, hlt⟩ := hs.waitBlocking hw
    simp [hl] at hlt
  haltedAtEnd _ := hl
  faultPrecise := nofun

theorem State.Inv.wait {s : State} (hs : s.Inv) (hr : s.runState = .running) (hl : s.ipl.toNat < memSize)
    (hb : s.config.trace = .blocking) : s.wait.Inv where
  memory := hs.memory
  iplRange := hs.iplRange
  endSlot := hs.endSlot
  returnNotAhead := hs.returnNotAhead
  waitBlocking _ := ⟨hb, hr, hl⟩
  haltedAtEnd := by simp [hr]
  faultPrecise := by simp [hr]

theorem exec_wf {i : Instr} {s t : State} (h : exec i s = .next t) (hm : s.mem.wf) : t.mem.wf := by
  obtain ⟨-, rfl⟩ | ⟨-, -, rfl⟩ | ⟨-, -, rfl⟩ | ⟨-, rfl⟩ | ⟨-, -, rfl⟩ | ⟨-, -, -, rfl⟩ | ⟨-, -, -, rfl⟩ := exec_cases h
  · exact hm
  · exact hm
  · exact hm
  · exact s.wf_setDataCell _ hm
  · exact hm
  · exact hm
  · exact hm

/-- LoopOpen makes both positions equal, a jump goes to the return pointer, and the advance only moves ahead of it
(41_execute.md R114). -/
theorem exec_returnNotAhead {i : Instr} {s t : State} (h : exec i s = .next t) (hl : s.ipl.toNat ≤ memSize)
    (hrp : posIndex s.rp ≤ posIndex s.ip) : posIndex t.rp ≤ posIndex t.ip := by
  have hnext : posIndex s.rp ≤ posIndex (posSucc s.ip) := by
    rw [posIndex_posSucc (p := s.ip) hl]
    exact Nat.le_succ_of_le hrp
  obtain ⟨-, rfl⟩ | ⟨-, -, rfl⟩ | ⟨-, -, rfl⟩ | ⟨-, rfl⟩ | ⟨-, -, rfl⟩ | ⟨-, -, -, rfl⟩ | ⟨-, -, -, rfl⟩ := exec_cases h
  · exact le_rfl
  · exact le_rfl
  · exact hnext
  · exact hnext
  · exact hnext
  · exact hnext
  · exact hrp

@[simp] theorem State.observed_fetchInstr (s : State) : s.observed.fetchInstr = s.fetchInstr := by
  simp [State.fetchInstr, State.fetchByte]

/-- A step that executes does not wait, and has ended the wait there was. -/
theorem State.observed_traceWait {s : State} (hinv : s.Inv) (he : s.executes = true) : s.observed.traceWait = false := by
  obtain ⟨-, -, hp⟩ := s.executes_iff.mp he
  obtain ⟨hb, heq⟩ | ⟨-, b, l, -, heq⟩ := State.passObserver_cases hp
  · rw [heq, Bool.eq_false_iff]
    exact fun hw => hb (hinv.waitBlocking hw).1
  · rw [heq]

theorem State.Inv.observed {s : State} (hs : s.Inv) (he : s.executes = true) : s.observed.Inv := by
  obtain ⟨hr, -, -⟩ := s.executes_iff.mp he
  refine .of_running (by simpa using hs.memory) ?_ (by simpa using hs.returnNotAhead) (State.observed_traceWait hs he)
    (by simpa using hr)
  rw [State.observed_ip]
  exact (posIndex_le_maxProgram_iff s.ip).mpr ⟨hs.iplRange, hs.endSlot⟩

theorem State.Inv.step {s t : State} (hs : s.Inv) (h : step s = .next t) : t.Inv := by
  obtain ⟨hr, ⟨hl, -⟩ | ⟨hl, rfl⟩ | ⟨hl, hp, rfl⟩ | ⟨he, hexec⟩⟩ := step_cases h
  · exact absurd hs.iplRange (not_le.mpr hl)
  · exact hs.halt hl
  · exact hs.wait hr hl (State.passObserver_eq_none.mp hp).1
  · have ho := hs.observed he
    obtain hrun | ⟨hi, hd, hc, rfl⟩ := exec_runState_or_fault hexec
    · refine .of_running (exec_wf hexec ho.memory) (step_posIndex_ip_le hs h)
        (exec_returnNotAhead hexec ho.iplRange ho.returnNotAhead) ?_ (by simpa [hr] using hrun)
      rw [exec_traceWait hexec, State.observed_traceWait hs he]
    · obtain ⟨-, hl, -⟩ := s.executes_iff.mp he
      exact ho.raiseFault (by simpa using hl) (State.observed_traceWait hs he) (by simpa using hi) hd hc

theorem start_inv (cfg : Config) (img : Codec.Image) : (start cfg img).Inv :=
  .of_running (start_wf cfg img) (show posIndex ⟨0#9, 0#2⟩ ≤ maxProgram by decide) le_rfl rfl rfl

end Sys2Proof.Machine

open Sys2Proof Sys2Proof.Machine

/-- Settles O29, one case for each thing a step can do. -/
theorem stepKeepsTheInvariant : Obligations.StepKeepsTheInvariant := fun _ _ => State.Inv.step

/-- Settles O30: the reset state runs, does not wait, and has both positions at (0, 0). -/
theorem resetMeetsTheInvariant : Obligations.ResetMeetsTheInvariant :=
  .of_running Memory.wf_nil (by decide) le_rfl rfl rfl

/-- Settles O31: a load is an image started. -/
theorem loadMeetsTheInvariant : Obligations.LoadMeetsTheInvariant := by
  refine ⟨fun cfg t st h => ?_, start_inv⟩
  obtain ⟨s, img, -, -, rfl⟩ := load_cases h
  exact start_inv cfg img

/-- Settles O32: the return pointer is not ahead, so its byte address is at most that of the LoopClose. -/
theorem takenLoopCloseNeverJumpsForward : Obligations.TakenLoopCloseNeverJumpsForward := by
  intro s t hinv he hj h
  have hip := step_ip_of_takesJump he hj h
  have hle := hinv.returnNotAhead
  refine ⟨hip, hip ▸ hle, ?_⟩
  obtain ⟨-, hl, -⟩ := s.executes_iff.mp he
  have hslot := s.iph.isLt
  simp only [posIndex, slots, memSize, State.rp_l, State.ip_l, State.rp_h, State.ip_h] at hle hl
  omega

/-- Settles O39: the state after the step meets the invariant, which names the only fault there is. -/
theorem invariantViolationIsRecordedAndUnreachable : Obligations.InvariantViolationIsRecordedAndUnreachable :=
  ⟨fun _ _ c l h hinv hstep hf => ((hinv.step hstep).faultPrecise c l h hf).1, step_of_out_of_range⟩

/-- Settles O43, by the carry out of slot 3 in `posIndex_posSucc`. -/
theorem successorRaisesTheIndexByOne : Obligations.SuccessorRaisesTheIndexByOne := fun _ => posIndex_posSucc
end

section
/-! Counts along a run (41_execute.md R109, R110): a cell and `dp` change by one for each executed instruction that
names them. -/
namespace Sys2Proof.Machine

theorem step_readByte {s t : State} (h : step s = .next t) (a : Addr) :
    t.readByte a =
      s.readByte a + if s.executes = true ∧ s.fetchInstr = .increment ∧ s.dp = a then 1#8 else 0#8 := by
  obtain ⟨he, hexec⟩ | ⟨he, hmem, -, -, -, -⟩ := step_executes_or_frame h
  · by_cases hi : s.fetchInstr = .increment
    · rw [hi, exec_increment] at hexec
      cases hexec
      rw [State.advance_readByte, State.readByte_setDataCell]
      by_cases ha : a = s.dp
      · simp [he, hi, ha, State.dataCell]
      · simp [ha, Ne.symm ha]
    · simpa [hi] using exec_sameCells hexec hi a
  · simp [he, State.readByte, hmem]

theorem countInstr_filter_dp_trail_succ (i : Instr) (a : Addr) (n : Nat) {s t : State} (h : step s = .next t) :
    countInstr i ((trail (n + 1) s).filter fun u => u.dp = a) =
      countInstr i ((trail n t).filter fun u => u.dp = a) +
        if s.executes = true ∧ s.fetchInstr = i ∧ s.dp = a then 1 else 0 := by
  rw [trail_succ_of_next n h]
  cases he : s.executes
  · simp
  · by_cases ha : s.dp = a <;> simp [countInstr, List.countP_cons, ha]

theorem run_readByte {n : Nat} {s t : State} (h : run n s = .next t) (a : Addr) :
    t.readByte a = s.readByte a +
      BitVec.ofNat 8 (countInstr .increment ((trail n s).filter fun u => u.dp = a)) := by
  induction n generalizing s with
  | zero =>
    cases h
    simp [trail, countInstr]
  | succ n ih =>
    obtain ⟨u, hu, hr⟩ := run_succ_cases h
    rw [ih hr, step_readByte hu, countInstr_filter_dp_trail_succ _ _ _ hu, BitVec.ofNat_add, BitVec.add_assoc]
    congr 1
    split <;> exact BitVec.add_comm _ _

theorem exec_shiftRight_dp {s t : State} (h : exec .shiftRight s = .next t) (ht : t.isFaulted = false) :
    t.dp = s.dp + 1#8 := by
  by_cases hd : s.dp = 255#8
  · cases hc : s.config.dpOverflow with
    | fault =>
      rw [exec_shiftRight_fault s hd hc] at h
      cases h
      simp at ht
    | wrap =>
      rw [exec_shiftRight_wrap s hd hc] at h
      cases h
      rw [State.advance_dp, State.setDp_dp, hd]
      rfl
  · rw [exec_shiftRight_of_ne s hd] at h
    cases h
    rfl

theorem step_dp {s t : State} (h : step s = .next t) (ht : t.isFaulted = false) :
    t.dp = s.dp + if s.executes = true ∧ s.fetchInstr = .shiftRight then 1#8 else 0#8 := by
  obtain ⟨he, hexec⟩ | ⟨he, -, hdp, -, -, -⟩ := step_executes_or_frame h
  · by_cases hi : s.fetchInstr = .shiftRight
    · rw [hi] at hexec
      simpa [he, hi] using exec_shiftRight_dp hexec ht
    · simpa [hi] using exec_dp hexec hi
  · simp [he, hdp]

theorem run_dp {n : Nat} {s t : State} (h : run n s = .next t) (ht : t.isFaulted = false) :
    t.dp = s.dp + BitVec.ofNat 8 (countInstr .shiftRight (trail n s)) := by
  induction n generalizing s with
  | zero =>
    cases h
    simp [trail, countInstr]
  | succ n ih =>
    obtain ⟨u, hu, hr⟩ := run_succ_cases h
    rw [ih hr, step_dp hu (isFaulted_eq_false_of_run hr ht), countInstr_trail_succ _ _ hu, BitVec.ofNat_add,
      BitVec.add_assoc]
    congr 1
    split <;> exact BitVec.add_comm _ _

/-- A trail lists executing states only. -/
theorem executes_of_mem_trail {n : Nat} {s u : State} (hu : u ∈ trail n s) : u.executes = true := by
  induction n generalizing s with
  | zero => simp [trail] at hu
  | succ n ih =>
    cases h : step s with
    | next t =>
      rw [trail_succ_of_next n h] at hu
      split at hu
      · next he =>
        obtain rfl | hu := List.mem_cons.mp hu
        · exact he
        · exact ih hu
      · exact ih hu
    | fault f => simp [trail, h] at hu
    | refused r => simp [trail, h] at hu

theorem mem_of_lastOpen_eq_some {l : List State} {v : State} (h : lastOpen l = some v) : v ∈ l :=
  (List.mem_filter.mp (List.mem_of_getLast? h)).1

end Sys2Proof.Machine

open Sys2Proof Sys2Proof.Machine

/-- Settles O35, by induction on the steps of the run. -/
theorem cellCountsItsIncrements : Obligations.CellCountsItsIncrements := fun _ _ _ a h => run_readByte h a

/-- Settles O36, by induction on the steps of the run; under WRAP the step from 255 to 0 adds one too. -/
theorem dataPointerCountsShiftRights : Obligations.DataPointerCountsShiftRights := fun _ _ _ => run_dp

/-- Settles O34: the return pointer is the position after the last LoopOpen, whose index is one more. -/
theorem selfLoopOnlyRightAfterItsLoopOpen : Obligations.SelfLoopOnlyRightAfterItsLoopOpen := by
  intro n s t v h hv
  obtain ⟨-, hl, -⟩ := v.executes_iff.mp (executes_of_mem_trail (mem_of_lastOpen_eq_some hv))
  have hrp : t.rp = posSucc v.ip := by simpa [hv] using run_rp h
  rw [hrp, posIndex_posSucc (p := v.ip) hl.le]
end

section
/-! The step count (41_execute.md R116): an executed step raises the linear index by one, less what a taken jump takes
back. -/
namespace Sys2Proof.Machine

theorem State.takesJump_iff (s : State) :
    s.takesJump = true ↔ s.fetchInstr = .loopClose ∧ s.loopCondition = true := by simp [State.takesJump]

theorem jumpCost_of_takesJump {s : State} (hj : s.takesJump = true) :
    jumpCost s = posIndex s.ip - posIndex s.rp + 1 := if_pos hj

theorem jumpCost_of_not_takesJump {s : State} (hj : s.takesJump = false) : jumpCost s = 0 := by simp [jumpCost, hj]

theorem step_posIndex_add_jumpCost {s t : State} (hrp : posIndex s.rp ≤ posIndex s.ip) (he : s.executes = true)
    (h : step s = .next t) (ht : t.isFaulted = false) : posIndex t.ip + jumpCost s = posIndex s.ip + 1 := by
  cases hj : s.takesJump with
  | true =>
    rw [step_ip_of_takesJump he hj h, jumpCost_of_takesJump hj]
    omega
  | false =>
    obtain ⟨-, hl, -⟩ := s.executes_iff.mp he
    rw [step_of_executes s he] at h
    obtain hip | ⟨hi, hc, -⟩ | ⟨hf, -⟩ := exec_ip_cases h
    · rw [hip, State.observed_ip, posIndex_posSucc (p := s.ip) hl.le, jumpCost_of_not_takesJump hj, Nat.add_zero]
    · have hjump := s.takesJump_iff.mpr ⟨hi, by simpa using hc⟩
      simp [hj] at hjump
    · simp [ht] at hf

theorem run_posIndex_add_jumpCost {n : Nat} {s t : State} (hinv : s.Inv) (h : run n s = .next t)
    (ht : t.isFaulted = false) :
    posIndex t.ip + ((trail n s).map jumpCost).sum = posIndex s.ip + (trail n s).length := by
  induction n generalizing s with
  | zero =>
    cases h
    rfl
  | succ n ih =>
    obtain ⟨u, hu, hr⟩ := run_succ_cases h
    have hrest := ih (hinv.step hu) hr
    rw [trail_succ_of_next n hu]
    obtain ⟨he, -⟩ | ⟨he, -, -, hip, -, -⟩ := step_executes_or_frame hu
    · have hstep := step_posIndex_add_jumpCost hinv.returnNotAhead he hu (isFaulted_eq_false_of_run hr ht)
      simp only [he, if_true, List.map_cons, List.sum_cons, List.length_cons]
      omega
    · simpa [he, hip] using hrest

/-- The one position at which a state that meets the invariant can halt (70_reset_and_hazards.md R165). -/
theorem State.Inv.ip_of_atEnd {s : State} (hs : s.Inv) (hl : s.ipl = 256#9) : s.ip = ⟨256#9, 0#2⟩ := by
  rw [State.ip, hl, hs.endSlot hl]

theorem State.ipl_lt_iff_posIndex (s : State) : s.ipl.toNat < memSize ↔ posIndex s.ip < maxProgram := by
  have hslot := s.iph.isLt
  simp only [posIndex, slots, memSize, maxProgram, State.ip_l, State.ip_h]
  omega

theorem State.Inv.ipl_eq_of_posIndex {s : State} (hs : s.Inv) (hp : posIndex s.ip = maxProgram) : s.ipl = 256#9 := by
  have hge : memSize ≤ s.ipl.toNat := not_lt.mp fun hl => hp.not_lt (s.ipl_lt_iff_posIndex.mp hl)
  exact BitVec.eq_of_toNat_eq (le_antisymm hs.iplRange hge)

/-- A step that executes and does not fault leaves the engine RUNNING. -/
theorem step_runState_of_executes {s t : State} (he : s.executes = true) (h : step s = .next t)
    (ht : t.isFaulted = false) : t.runState = .running := by
  obtain ⟨hr, -, -⟩ := s.executes_iff.mp he
  rw [step_of_executes s he] at h
  obtain hrun | ⟨-, -, -, rfl⟩ := exec_runState_or_fault h
  · simpa [hr] using hrun
  · simp at ht

theorem exists_step_of_executes {s : State} (he : s.executes = true) : ∃ t, step s = .next t := by
  rw [step_of_executes s he]
  exact exec_total _ _

/-- By induction on the positions left: each step without a jump uses up one of them. -/
theorem run_halts_of_no_jump {k : Nat} {s : State} (hinv : s.Inv) (hr : s.runState = .running)
    (hb : s.config.trace ≠ .blocking) (hk : posIndex s.ip + k = maxProgram)
    (hjump : ∀ u ∈ trail k s, u.takesJump = false)
    (hfault : ∀ (j : Nat) (t : State), run j s = .next t → t.isFaulted = false) :
    ∃ t, run (k + 1) s = .next t ∧ t.runState = .halted ∧ t.ip = ⟨256#9, 0#2⟩ ∧ (trail (k + 1) s).length = k := by
  induction k generalizing s with
  | zero =>
    have hl := hinv.ipl_eq_of_posIndex hk
    have hstep := step_of_atEnd s hr hl
    have he : s.executes = false := by simp [State.executes, hl]
    refine ⟨s.halt, run_succ_of_next 0 hstep, rfl, hinv.ip_of_atEnd hl, ?_⟩
    rw [trail_succ_of_next 0 hstep, he]
    rfl
  | succ k ih =>
    have he := State.executes_of_not_blocking hr (s.ipl_lt_iff_posIndex.mpr (by omega)) hb
    obtain ⟨u, hu⟩ := exists_step_of_executes he
    have htrail (n : Nat) : trail (n + 1) s = s :: trail n u := by simp [trail_succ_of_next n hu, he]
    rw [htrail k, List.forall_mem_cons] at hjump
    have hok : u.isFaulted = false := hfault 1 u (run_succ_of_next 0 hu)
    have hindex := step_posIndex_add_jumpCost hinv.returnNotAhead he hu hok
    rw [jumpCost_of_not_takesJump hjump.1] at hindex
    obtain ⟨t, hrun, hhalt, hip, hlen⟩ := ih (hinv.step hu) (step_runState_of_executes he hu hok)
      (by rwa [step_config hu]) (by omega) hjump.2
      fun j t h => hfault (j + 1) t (by rwa [run_succ_of_next j hu])
    exact ⟨t, by rwa [run_succ_of_next _ hu], hhalt, hip, by rw [htrail, List.length_cons, hlen]⟩

end Sys2Proof.Machine

open Sys2Proof Sys2Proof.Machine

/-- Settles O37, by induction on the steps of the run; a halted state stands at index 1024. -/
theorem stepCountAccountsForEveryJump : Obligations.StepCountAccountsForEveryJump := by
  intro n s t hinv h ht
  have hcount := run_posIndex_add_jumpCost hinv h ht
  refine ⟨hcount, fun hhalt => ?_⟩
  have htinv : t.Inv := run_induction (fun _ _ => State.Inv.step) n s t hinv h
  rw [← hcount, htinv.ip_of_atEnd (htinv.haltedAtEnd hhalt)]
  rfl

/-- Settles O38, by induction on the positions left. -/
theorem runWithoutJumpsHalts : Obligations.RunWithoutJumpsHalts := by
  intro s hinv hr hb
  have hle : posIndex s.ip ≤ maxProgram := (posIndex_le_maxProgram_iff s.ip).mpr ⟨hinv.iplRange, hinv.endSlot⟩
  exact run_halts_of_no_jump hinv hr hb (Nat.add_sub_of_le hle)
end

section
/-! The step as one function on plain numbers (41_execute.md R113): the plain reading of each part of the state, one
equation per branch of `Plain.step`, and from these the refinement. -/
namespace Sys2Proof.Machine

/-! ### The plain reading -/

@[simp] theorem State.observed_plain (s : State) : s.observed.plain = s.plain := by simp [State.plain]

theorem plainSucc_toNat {p : Pos} (hl : p.l.toNat ≤ memSize) :
    plainSucc p.l.toNat p.h.toNat = ((posSucc p).l.toNat, (posSucc p).h.toNat) := by
  simp only [memSize] at hl
  by_cases hh : p.h = 3#2
  · have hcarry : (p.l + 1#9).toNat = p.l.toNat + 1 := by bv_omega
    simp [plainSucc, posSucc_of_h_eq hh, hh, hcarry]
  · have hne : p.h.toNat ≠ 3 := fun h => hh (BitVec.eq_of_toNat_eq h)
    have hnext : (p.h + 1#2).toNat = p.h.toNat + 1 := by bv_omega
    simp [plainSucc, posSucc_of_h_ne hh, hne, hnext]

theorem State.plain_advance {s : State} (hl : s.ipl.toNat ≤ memSize) : s.advance.plain = s.plain.advance := by
  have hsucc := plainSucc_toNat (p := s.ip) hl
  simp only [State.ip_l, State.ip_h] at hsucc
  simp [State.plain, Plain.advance, hsucc]

theorem plainSlot_toNat (b : Byte) (h : Slot) :
    plainSlot b.toNat h.toNat = (Codec.code (Codec.slotInstr b h)).toNat := by
  rw [Codec.code_slotInstr, BitVec.extractLsb'_toNat, Nat.shiftRight_eq_div_pow]
  rfl

theorem State.plainSlot_plain {s : State} (hl : s.ipl.toNat < memSize) :
    plainSlot (s.plain.mem s.plain.ipl) s.plain.iph = (Codec.code s.fetchInstr).toNat := by
  rw [State.fetchInstr, ← plainSlot_toNat, State.fetchByte, State.readByte, toNat_setWidth_of_lt hl]
  rfl

theorem State.plain_loopCondition (s : State) : s.plain.mem s.plain.dp ≠ 0 ↔ s.loopCondition = true := by
  rw [State.loopCondition_iff, ← BitVec.toNat_ne_iff_ne]
  rfl

theorem State.plain_dp (s : State) : s.plain.dp = 255 ↔ s.dp = 255#8 := BitVec.toNat_inj (y := 255#8)

theorem State.plain_setDataCell (s : State) : (s.setDataCell (s.dataCell + 1#8)).plain =
    { s.plain with mem := fun a => if a = s.plain.dp then (s.plain.mem s.plain.dp + 1) % 256 else s.plain.mem a } := by
  have hmem (a : Nat) : (Memory.read (s.setDataCell (s.dataCell + 1#8)).mem a).toNat =
      if a = s.dp.toNat then (s.dataCell.toNat + 1) % 256 else (s.mem.read a).toNat := by
    by_cases ha : a = s.dp.toNat
    · subst ha
      rw [State.setDataCell_mem, Memory.read_write_same, BitVec.toNat_add, if_pos rfl]
      rfl
    · rw [State.setDataCell_mem, Memory.read_write_other _ _ _ _ ha, if_neg ha]
  simp only [State.plain, hmem]
  rfl

/-! ### The branches of the one function -/

theorem Plain.step_of_atEnd {p : Plain} (hl : p.ipl = 256) : p.step = { p with runState := .halted } := if_pos hl

section
variable {p : Plain} (hl : p.ipl ≠ 256)
include hl

theorem Plain.step_loopOpen (hs : plainSlot (p.mem p.ipl) p.iph = 0) :
    p.step = { p with rpl := (plainSucc p.ipl p.iph).1, rph := (plainSucc p.ipl p.iph).2 }.advance := by
  simp [Plain.step, hl, hs]

theorem Plain.step_loopClose_taken (hs : plainSlot (p.mem p.ipl) p.iph = 1) (hc : p.mem p.dp ≠ 0) :
    p.step = { p with ipl := p.rpl, iph := p.rph } := by
  simp [Plain.step, hl, hs, hc]

theorem Plain.step_loopClose_not_taken (hs : plainSlot (p.mem p.ipl) p.iph = 1) (hc : p.mem p.dp = 0) :
    p.step = p.advance := by
  simp [Plain.step, hl, hs, hc]

theorem Plain.step_increment (hs : plainSlot (p.mem p.ipl) p.iph = 2) : p.step =
    { p with mem := fun a => if a = p.dp then (p.mem p.dp + 1) % 256 else p.mem a }.advance := by
  simp [Plain.step, hl, hs]

theorem Plain.step_shiftRight_of_ne (hs : plainSlot (p.mem p.ipl) p.iph = 3) (hd : p.dp ≠ 255) :
    p.step = { p with dp := p.dp + 1 }.advance := by
  simp [Plain.step, hl, hs, hd]

theorem Plain.step_shiftRight_wrap (hs : plainSlot (p.mem p.ipl) p.iph = 3) (hd : p.dp = 255)
    (hc : p.overflow = .wrap) : p.step = { p with dp := 0 }.advance := by
  simp [Plain.step, hl, hs, hd, hc]

theorem Plain.step_shiftRight_fault (hs : plainSlot (p.mem p.ipl) p.iph = 3) (hd : p.dp = 255)
    (hc : p.overflow = .fault) : p.step =
      { p with runState := .faulted .dataPointerOutOfRange (BitVec.ofNat 9 p.ipl) (BitVec.ofNat 2 p.iph) } := by
  simp [Plain.step, hl, hs, hd, hc]

end

/-! ### The refinement -/

theorem exec_plain {s t : State} (hl : s.ipl.toNat < memSize) (h : exec s.fetchInstr s = .next t) :
    t.plain = s.plain.step := by
  have hslot := State.plainSlot_plain hl
  have hne : s.plain.ipl ≠ 256 := hl.ne
  obtain ⟨hi, rfl⟩ | ⟨hi, hc, rfl⟩ | ⟨hi, hc, rfl⟩ | ⟨hi, rfl⟩ | ⟨hi, hd, rfl⟩ | ⟨hi, hd, hc, rfl⟩ |
    ⟨hi, hd, hc, rfl⟩ := exec_cases h <;> rw [hi] at hslot
  · rw [Plain.step_loopOpen hne hslot, State.plain_advance (s := s.setRp _) hl.le]
    have hsucc := plainSucc_toNat (p := s.ip) hl.le
    simp only [State.ip_l, State.ip_h] at hsucc
    simp [State.plain, hsucc]
  · rw [Plain.step_loopClose_taken hne hslot (s.plain_loopCondition.mpr hc)]
    rfl
  · have hzero : s.plain.mem s.plain.dp = 0 := of_not_not fun hnz => by simp [s.plain_loopCondition.mp hnz] at hc
    rw [Plain.step_loopClose_not_taken hne hslot hzero, State.plain_advance hl.le]
  · rw [Plain.step_increment hne hslot, State.plain_advance (s := s.setDataCell _) hl.le, State.plain_setDataCell]
  · rw [Plain.step_shiftRight_of_ne hne hslot (mt s.plain_dp.mp hd),
      State.plain_advance (s := s.setDp (s.dp + 1#8)) hl.le]
    have hdp : (s.dp + 1#8).toNat = s.dp.toNat + 1 := by bv_omega
    simp [State.plain, hdp]
  · rw [Plain.step_shiftRight_wrap hne hslot (s.plain_dp.mpr hd) hc,
      State.plain_advance (s := s.setDp 0#8) hl.le]
    rfl
  · rw [Plain.step_shiftRight_fault hne hslot (s.plain_dp.mpr hd) hc]
    simp [State.plain]

end Sys2Proof.Machine

open Sys2Proof Sys2Proof.Machine

/-- Settles O40, one branch of the spec's function for each thing an instruction can do. -/
theorem stepRefinesTheOneFunctionStep : Obligations.StepRefinesTheOneFunctionStep := by
  rintro s hr - (he | hl)
  · obtain ⟨t, h⟩ := exists_step_of_executes he
    refine ⟨t, h, ?_⟩
    obtain ⟨-, hl, -⟩ := s.executes_iff.mp he
    rw [step_of_executes s he, ← s.observed_fetchInstr] at h
    simpa using exec_plain (by simpa using hl) h
  · refine ⟨_, step_of_atEnd s hr hl, (Plain.step_of_atEnd (p := s.plain) ?_).symm⟩
    exact congrArg BitVec.toNat hl
end

section
/-! Blocking trace (60_exceptions.md R147, R148; D11): the observe phase takes one signal or waits, and nothing else of
a step depends on the trace mode or on the signals. -/
namespace Sys2Proof.Machine

theorem traceBlocking_iff (c : Config) : traceBlocking c = true ↔ c.trace = .blocking := by
  cases h : c.trace <;> simp [traceBlocking, h]

theorem traceEnable_of_blocking {c : Config} (h : c.trace = .blocking) : traceEnable c = true := by
  simp [traceEnable, h]

theorem State.executes_iff_of_blocking {s : State} (hb : s.config.trace = .blocking) :
    s.executes = true ↔ s.runState = .running ∧ s.ipl.toNat < memSize ∧ s.continueIn ≠ [] := by
  have hpass : s.passObserver.isSome = true ↔ s.continueIn ≠ [] := by
    rw [Option.isSome_iff_ne_none, ne_eq, State.passObserver_eq_none]
    simp [hb]
  simp [State.executes, hpass, and_assoc]

theorem State.observed_of_blocking {s : State} (hb : s.config.trace = .blocking) (hl : s.continueIn ≠ []) :
    s.observed = { s with traceWait := false, continueIn := s.continueIn.tail } := by
  obtain ⟨b, l, hcons⟩ := List.exists_cons_of_ne_nil hl
  rw [State.observed, State.passObserver_blocking_cons s b l hb hcons, hcons]
  rfl

theorem step_of_blocking {s : State} (hb : s.config.trace = .blocking) (he : s.executes = true) :
    step s = exec s.fetchInstr { s with traceWait := false, continueIn := s.continueIn.tail } := by
  obtain ⟨-, -, hl⟩ := (State.executes_iff_of_blocking hb).mp he
  rw [step_of_executes s he, State.observed_of_blocking hb hl]

theorem step_of_no_signal {s : State} (hr : s.runState = .running) (hl : s.ipl.toNat < memSize)
    (hb : s.config.trace = .blocking) (hsig : s.continueIn = []) : step s = .next s.wait :=
  step_of_waiting s hr hl (s.passObserver_blocking_nil hb hsig)

/-- A wait is a step that answers its own state from the second time on. -/
theorem run_of_no_signal {s : State} (hr : s.runState = .running) (hl : s.ipl.toNat < memSize)
    (hb : s.config.trace = .blocking) (hsig : s.continueIn = []) (n : Nat) : run (n + 1) s = .next s.wait := by
  rw [run_succ_of_next n (step_of_no_signal hr hl hb hsig)]
  exact run_of_step_self (step_of_no_signal (s := s.wait) hr hl hb hsig) n

/-- One signal, of any value, ends the wait. -/
theorem step_wait_signalContinue {s : State} (hr : s.runState = .running) (hl : s.ipl.toNat < memSize)
    (hb : s.config.trace = .blocking) (hsig : s.continueIn = []) (b : Byte) :
    step (s.wait.signalContinue b) = exec s.fetchInstr { s with traceWait := false } := by
  have he : (s.wait.signalContinue b).executes = true :=
    (State.executes_iff_of_blocking (s := s.wait.signalContinue b) hb).mpr ⟨hr, hl, by simp⟩
  have htail : { s.wait.signalContinue b with traceWait := false, continueIn := (s.continueIn ++ [b]).tail } =
      { s with traceWait := false } := by
    simp [State.signalContinue, State.wait, hsig]
  rw [step_of_blocking (s := s.wait.signalContinue b) hb he, State.signalContinue_continueIn, State.wait_continueIn,
    htail]
  rfl

/-- No instruction looks at the pending signals. -/
theorem exec_withSignals (i : Instr) (s : State) (l : List Byte) :
    exec i (s.withSignals l) = mapNext (·.withSignals l) (exec i s) := by
  cases i with
  | loopOpen => rfl
  | increment => rfl
  | loopClose =>
    cases hc : s.loopCondition with
    | true =>
      rw [exec_loopClose_taken s hc]
      exact exec_loopClose_taken (s.withSignals l) hc
    | false =>
      rw [exec_loopClose_not_taken s hc]
      exact exec_loopClose_not_taken (s.withSignals l) hc
  | shiftRight =>
    by_cases hd : s.dp = 255#8
    · cases hc : s.config.dpOverflow with
      | fault =>
        rw [exec_shiftRight_fault s hd hc]
        exact exec_shiftRight_fault (s.withSignals l) hd hc
      | wrap =>
        rw [exec_shiftRight_wrap s hd hc]
        exact exec_shiftRight_wrap (s.withSignals l) hd hc
    · rw [exec_shiftRight_of_ne s hd]
      exact exec_shiftRight_of_ne (s.withSignals l) hd

/-- `s` under blocking trace with the signals `l` pending. -/
def State.blockingWith (s : State) (l : List Byte) : State := (s.withTrace .blocking).withSignals l

theorem exec_blockingWith {i : Instr} {s t : State} (h : exec i s = .next t) (l : List Byte) :
    exec i (s.blockingWith l) = .next (t.blockingWith l) := by
  rw [State.blockingWith, exec_withSignals, exec_withTrace, h]
  rfl

/-- A step that executes does the same under blocking trace, and takes one signal. -/
theorem step_blockingWith_cons {s t : State} (hb : s.config.trace ≠ .blocking) (hw : s.traceWait = false)
    (he : s.executes = true) (h : step s = .next t) (b : Byte) (l : List Byte) :
    step (s.blockingWith (b :: l)) = .next (t.blockingWith l) := by
  obtain ⟨hr, hl, -⟩ := s.executes_iff.mp he
  have hexec : (s.blockingWith (b :: l)).executes = true :=
    (State.executes_iff_of_blocking (s := s.blockingWith (b :: l)) rfl).mpr ⟨hr, hl, by simp [State.blockingWith]⟩
  have htaken : { s.blockingWith (b :: l) with traceWait := false, continueIn := l } = s.blockingWith l := by
    rw [← hw]
    rfl
  rw [step_of_executes s he, State.observed_of_not_blocking hb] at h
  refine (step_of_blocking rfl hexec).trans ?_
  rw [show (s.blockingWith (b :: l)).continueIn.tail = l from rfl, htaken]
  exact exec_blockingWith h l

/-- A step that executes nothing does the same under blocking trace, and takes no signal. -/
theorem step_blockingWith_idle {s t : State} (hb : s.config.trace ≠ .blocking) (he : s.executes = false)
    (h : step s = .next t) (l : List Byte) : step (s.blockingWith l) = .next (t.blockingWith l) := by
  obtain ⟨hr, ⟨hl, rfl⟩ | ⟨hl, rfl⟩ | ⟨-, hp, -⟩ | ⟨he', -⟩⟩ := step_cases h
  · exact step_of_out_of_range (s.blockingWith l) hr hl
  · exact step_of_atEnd (s.blockingWith l) hr hl
  · exact absurd (State.passObserver_eq_none.mp hp).1 hb
  · simp [he] at he'

theorem step_traceWait_of_not_blocking {s t : State} (hb : s.config.trace ≠ .blocking) (h : step s = .next t) :
    t.traceWait = s.traceWait := by
  obtain ⟨-, ⟨-, rfl⟩ | ⟨-, rfl⟩ | ⟨-, hp, -⟩ | ⟨-, hexec⟩⟩ := step_cases h
  · rfl
  · rfl
  · exact absurd (State.passObserver_eq_none.mp hp).1 hb
  · rw [exec_traceWait hexec, State.observed_of_not_blocking hb]

theorem run_blockingWith {n : Nat} {s t : State} {l : List Byte} (hb : s.config.trace ≠ .blocking)
    (hw : s.traceWait = false) (h : run n s = .next t) (hlen : (trail n s).length ≤ l.length) :
    run n (s.blockingWith l) = .next (t.blockingWith (l.drop (trail n s).length)) := by
  induction n generalizing s l with
  | zero =>
    cases h
    rfl
  | succ n ih =>
    obtain ⟨u, hu, hr⟩ := run_succ_cases h
    have hub : u.config.trace ≠ .blocking := by rwa [step_config hu]
    have huw : u.traceWait = false := (step_traceWait_of_not_blocking hb hu).trans hw
    rw [trail_succ_of_next n hu] at hlen ⊢
    cases he : s.executes with
    | true =>
      rw [he, if_pos rfl] at hlen
      obtain ⟨b, l, rfl⟩ := List.exists_cons_of_length_pos (Nat.zero_lt_of_lt hlen)
      rw [run_succ_of_next n (step_blockingWith_cons hb hw he hu b l), if_pos rfl, List.length_cons,
        List.drop_succ_cons]
      exact ih hub huw hr (Nat.le_of_succ_le_succ hlen)
    | false =>
      rw [he, if_neg Bool.false_ne_true] at hlen
      rw [run_succ_of_next n (step_blockingWith_idle hb he hu l), if_neg Bool.false_ne_true]
      exact ih hub huw hr hlen

end Sys2Proof.Machine

open Sys2Proof Sys2Proof.Machine

/-- Settles O47, by induction on the steps of the run: each executed step takes one signal, and no other step does. -/
theorem blockingTraceGivesTheSameStates : Obligations.BlockingTraceGivesTheSameStates :=
  fun _ s _ _ hw h hlen => run_blockingWith (s := s.withTrace .off) nofun hw h hlen

/-- Settles O48, from the step with no signal, which answers the waiting state, and the step with one. -/
theorem blockingStepWaitsForOneSignal : Obligations.BlockingStepWaitsForOneSignal :=
  ⟨fun _ n hr hl hb hsig => run_of_no_signal hr hl hb hsig n,
    fun _ b hr hl hb hsig => step_wait_signalContinue hr hl hb hsig b,
    fun c hc => traceEnable_of_blocking ((traceBlocking_iff c).mp hc)⟩

/-- Settles O18: the observe phase passes exactly with a signal to take. -/
theorem blockingStepTakesOneContinueSignal : Obligations.BlockingStepTakesOneContinueSignal :=
  fun _ hb => ⟨State.executes_iff_of_blocking hb, step_of_blocking hb⟩
end

section
/-! The snapshots of a run (60_exceptions.md R144): one for each executed step, presented when the step enters phase
(4). -/
namespace Sys2Proof.Machine

theorem traceOut_of_waiting {s : State} (hw : s.traceWait = true) : traceOut s = none := by simp [traceOut, hw]

theorem toList_traceOut_of_observe {s : State} (ht : s.config.trace = .observe) (hw : s.traceWait = false) :
    (traceOut s).toList = if s.executes then [s.snapshot] else [] := by
  have hpass : s.passObserver = some s := s.passObserver_of_not_blocking (by simp [ht])
  have hcond : (traceEnable s.config ∧ s.runState = .running ∧ s.ipl.toNat < memSize ∧ s.traceWait = false) ↔
      s.executes = true := by simp [traceEnable, ht, hw, State.executes, hpass]
  by_cases he : s.executes = true
  · rw [traceOut, if_pos (hcond.mpr he), if_pos he, Option.toList_some]
  · rw [traceOut, if_neg (mt hcond.mp he), if_neg he, Option.toList_none]

theorem executes_eq_false_of_no_step {s : State} (h : ∀ t, step s ≠ .next t) : s.executes = false := by
  by_contra he
  obtain ⟨t, ht⟩ := exists_step_of_executes (eq_true_of_ne_false he)
  exact h t ht

theorem traces_of_observe (n : Nat) {s : State} (ht : s.config.trace = .observe) (hw : s.traceWait = false) :
    traces n s = (trail n s).map State.snapshot := by
  induction n generalizing s with
  | zero => rfl
  | succ n ih =>
    have hout := toList_traceOut_of_observe ht hw
    have hb : s.config.trace ≠ .blocking := by simp [ht]
    cases h : step s with
    | next t =>
      rw [traces_succ_of_next n h, trail_succ_of_next n h, hout,
        ih (by rwa [step_config h]) ((step_traceWait_of_not_blocking hb h).trans hw)]
      split <;> rfl
    | fault f =>
      have he : s.executes = false := executes_eq_false_of_no_step (by simp [h])
      simp [traces, trail, h, hout, he]
    | refused r =>
      have he : s.executes = false := executes_eq_false_of_no_step (by simp [h])
      simp [traces, trail, h, hout, he]

/-- A step in phase (4) presents its snapshot now, or did so when it began to wait. -/
theorem waitingSnapshot_append_traceOut {s : State} (hen : traceEnable s.config = true) (hr : s.runState = .running)
    (hl : s.ipl.toNat < memSize) : s.waitingSnapshot ++ (traceOut s).toList = [s.snapshot] := by
  cases hw : s.traceWait with
  | true => simp [traceOut_of_waiting hw, State.waitingSnapshot, hw]
  | false => simp [traceOut_of_presents hen hr hl hw, State.waitingSnapshot, hw]

theorem step_snapshots {s t : State} (hinv : s.Inv) (hen : traceEnable s.config = true) (h : step s = .next t) :
    s.waitingSnapshot ++ (traceOut s).toList =
      (if s.executes then [s.snapshot] else []) ++ t.waitingSnapshot := by
  obtain ⟨hr, ⟨hl, -⟩ | ⟨hl, rfl⟩ | ⟨hl, hp, rfl⟩ | ⟨he, hexec⟩⟩ := step_cases h
  · exact absurd hinv.iplRange (not_le.mpr hl)
  · have hw : s.traceWait = false := Bool.eq_false_iff.mpr fun hw => by
      obtain ⟨-, -, hlt⟩ := hinv.waitBlocking hw
      simp [hl] at hlt
    have he : s.executes = false := by simp [State.executes, hl]
    simp [traceOut_of_atEnd hl, State.waitingSnapshot, hw, he]
  · have he : s.executes = false := by simp [State.executes, hp]
    rw [waitingSnapshot_append_traceOut hen hr hl, he, State.wait_waitingSnapshot]
    rfl
  · obtain ⟨-, hl, -⟩ := s.executes_iff.mp he
    have hw : t.traceWait = false := (exec_traceWait hexec).trans (State.observed_traceWait hinv he)
    rw [waitingSnapshot_append_traceOut hen hr hl, he, t.waitingSnapshot_of_not_waiting hw]
    rfl

theorem run_snapshots {n : Nat} {s t : State} (hinv : s.Inv) (hen : traceEnable s.config = true)
    (h : run n s = .next t) :
    s.waitingSnapshot ++ traces n s = (trail n s).map State.snapshot ++ t.waitingSnapshot := by
  induction n generalizing s with
  | zero =>
    cases h
    simp [traces, trail]
  | succ n ih =>
    obtain ⟨u, hu, hr⟩ := run_succ_cases h
    have hrest := ih (hinv.step hu) (by rwa [step_config hu]) hr
    rw [traces_succ_of_next n hu, trail_succ_of_next n hu, ← List.append_assoc, step_snapshots hinv hen hu,
      List.append_assoc, hrest]
    split <;> rfl

end Sys2Proof.Machine

open Sys2Proof Sys2Proof.Machine

/-- Settles O45, by induction on the steps of the run; a step that waits carries its snapshot over to the next. -/
theorem oneSnapshotPerExecutedStep : Obligations.OneSnapshotPerExecutedStep :=
  ⟨fun n _ => traces_of_observe n, fun _ => traceOut_of_waiting, fun _ _ _ => run_snapshots⟩
end

section
/-! Memory as its 256 readings (10_state.md section 2): a canonical memory lists exactly the cells that do not read as
zero. -/
namespace Sys2Proof.Machine

theorem Memory.read_of_mem {m : Memory} (hm : m.Pairwise fun c d => c.1 < d.1) {c : Host.Cell} (hc : c ∈ m) :
    m.read c.1 = c.2 := by
  induction m with
  | nil => simp at hc
  | cons d m ih =>
    obtain ⟨hlt, hm⟩ := List.pairwise_cons.mp hm
    obtain rfl | hc := List.mem_cons.mp hc
    · simp [Memory.read]
    · simpa [Memory.read, (hlt c hc).ne'] using ih hm hc

theorem Memory.mem_iff_of_wf {m : Memory} (hm : m.wf) (c : Host.Cell) :
    c ∈ m ↔ c.2 ≠ Memory.unlisted ∧ m.read c.1 = c.2 := by
  refine ⟨fun hc => ⟨(hm.2 c hc).2, Memory.read_of_mem hm.1 hc⟩, fun ⟨hne, hread⟩ => ?_⟩
  obtain ⟨d, hd, hdc⟩ : ∃ d ∈ m, d.1 = c.1 := by
    by_contra hnone
    push Not at hnone
    exact hne (hread.symm.trans (m.read_of_unlisted c.1 hnone))
  have hval : d.2 = c.2 := by rw [← hread, ← hdc, Memory.read_of_mem hm.1 hd]
  exact Prod.ext hdc hval ▸ hd

/-- Above the last address nothing is listed. -/
theorem Memory.read_of_ge {m : Memory} (hm : m.wf) {a : Nat} (ha : memSize ≤ a) : m.read a = Memory.unlisted :=
  m.read_of_unlisted a fun c hc => ((hm.2 c hc).1.trans_le ha).ne

theorem Memory.ext_of_wf {m m' : Memory} (hm : m.wf) (hm' : m'.wf) (h : ∀ a < memSize, m.read a = m'.read a) :
    m = m' := by
  have hread (a : Nat) : m.read a = m'.read a := by
    rcases Nat.lt_or_ge a memSize with ha | ha
    · exact h a ha
    · rw [Memory.read_of_ge hm ha, Memory.read_of_ge hm' ha]
  have hperm : m.Perm m' := (List.perm_ext_iff_of_nodup (hm.1.imp fun hlt heq => hlt.ne (congrArg Prod.fst heq))
    (hm'.1.imp fun hlt heq => hlt.ne (congrArg Prod.fst heq))).mpr fun c => by
      rw [Memory.mem_iff_of_wf hm, Memory.mem_iff_of_wf hm', hread]
  exact hperm.eq_of_pairwise (fun c d _ _ hcd hdc => absurd hdc hcd.asymm) hm.1 hm'.1

/-- The empty program's image is the empty list of cells. -/
theorem Memory.ofImage_empty_program :
    Memory.ofImage (Vector.ofFn fun i : Fin memSize => Codec.orSlots 0 (Codec.chunk [] i.val)) = [] := by
  refine Memory.ext_of_wf (Memory.wf_ofImage _) Memory.wf_nil fun a ha => ?_
  rw [Memory.read_ofImage _ ⟨a, ha⟩, Fin.getElem_fin, Vector.getElem_ofFn, Codec.chunk_eq_nil (Nat.zero_le _)]
  rfl

end Sys2Proof.Machine

open Sys2Proof Sys2Proof.Machine

/-- Settles O42: the two memories list the same cells, each in rising order. -/
theorem memoriesThatReadAlikeAreEqual : Obligations.MemoriesThatReadAlikeAreEqual := fun _ _ => Memory.ext_of_wf

/-- Settles O13: the empty text packs to zero bytes, none of which is listed. -/
theorem resetIsTheLoadOfTheEmptyProgram : Obligations.ResetIsTheLoadOfTheEmptyProgram := by
  refine ⟨?_, fun _ => rfl⟩
  rw [load_of_ok Config.standard (text := []) rfl (Codec.pack_of_length_le (Nat.zero_le _)), start,
    Memory.ofImage_empty_program]
  rfl
end

section
/-! The step's enabling and the fetch after a store (41_execute.md R101, R103; 20_memory.md section 4). -/
namespace Sys2Proof.Machine

theorem exists_step_of_running {s : State} (hr : s.runState = .running) : ∃ t, step s = .next t := by
  rcases Nat.lt_trichotomy s.ipl.toNat memSize with hl | hl | hl
  · cases hp : s.passObserver with
    | none => exact ⟨_, step_of_waiting s hr hl hp⟩
    | some u => exact exists_step_of_executes (s.executes_iff.mpr ⟨hr, hl, by simp [State.observed, hp]⟩)
  · exact ⟨_, step_of_atEnd s hr (BitVec.eq_of_toNat_eq hl)⟩
  · exact ⟨_, step_of_out_of_range s hr hl⟩

end Sys2Proof.Machine

open Sys2Proof Sys2Proof.Machine

/-- Settles O15, from the step in each run state. -/
theorem stepIsEnabledOnlyWhenRunning : Obligations.StepIsEnabledOnlyWhenRunning :=
  ⟨fun _ => ⟨fun ⟨_, h⟩ => (step_cases h).1, exists_step_of_running⟩, step_of_halted, step_of_faulted,
    fun s hr hl hb hsig => step_of_no_signal hr hl ((traceBlocking_iff s.config).mp hb) hsig⟩

/-- Settles O41: the fetched byte is a cell, which the step raises by one exactly at `dp`. -/
theorem nextFetchSeesTheIncrement : Obligations.NextFetchSeesTheIncrement := by
  intro s t he hi h
  rw [State.fetchByte, step_readByte h]
  by_cases ha : t.ipl.setWidth 8 = s.dp
  · simp [he, hi, ha]
  · simp [ha, Ne.symm ha]
end

section
/-! The alphabet (40_codec.md R83, R84; D6). -/
namespace Sys2Proof.Codec

theorem instructionOf_charOf (i : Instr) : instructionOf (charOf i) = .ok i := by cases i <;> decide

theorem instructionOf_eq_ok_iff (ch : Byte) (i : Instr) : instructionOf ch = .ok i ↔ ch = charOf i := by
  refine ⟨fun h => ?_, fun h => h ▸ instructionOf_charOf i⟩
  unfold instructionOf at h
  split_ifs at h with h₁ h₂ h₃ h₄
  · exact Except.ok.inj h ▸ h₁
  · exact Except.ok.inj h ▸ h₂
  · exact Except.ok.inj h ▸ h₃
  · exact Except.ok.inj h ▸ h₄

theorem instructionOf_of_not_char {ch : Byte} (h : ∀ i, ch ≠ charOf i) :
    instructionOf ch = .error (.invalidInstructionChar ch) := by
  cases hch : instructionOf ch with
  | ok i => exact absurd ((instructionOf_eq_ok_iff ch i).mp hch) (h i)
  | error e => rw [instructionOf_error hch]

theorem charOf_toNat_lt (i : Instr) : (charOf i).toNat < 0x80 := by cases i <;> decide

end Sys2Proof.Codec

open Sys2Proof Sys2Proof.Machine

/-- Settles O6: a byte that is no instruction's character is refused, and the four characters are below 0x80. -/
theorem alphabetIsExactlyFourCharacters : Obligations.AlphabetIsExactlyFourCharacters := by
  refine ⟨by decide, Codec.instructionOf_eq_ok_iff, fun _ => Codec.instructionOf_of_not_char, by decide,
    fun ch hch => Codec.instructionOf_of_not_char ?_⟩
  rintro i rfl
  exact absurd hch (not_le.mpr (Codec.charOf_toNat_lt i))
end

section
/-! The ports (60_exceptions.md R130, R150; 70_reset_and_hazards.md R165): the codec on codes, the condition codes and
the read-out. -/
namespace Sys2Proof.Codec

theorem code_eq_iff (i : Instr) (c : Code) : code i = c ↔ i = instr c :=
  ⟨fun h => h ▸ (instr_code i).symm, fun h => h ▸ code_instr c⟩

end Sys2Proof.Codec

namespace Sys2Proof.Machine

theorem decodeBytePort_getElem (b : Byte) (k : Fin 4) :
    (decodeBytePort b)[k] = Codec.code (Codec.slotInstr b (BitVec.ofFin k)) := by
  fin_cases k <;> rfl

/-- The group of the first `n` codes has a code in its first `n` slots. -/
theorem getElem?_take_map_instr (cs : Vector Code slots) (n : Nat) (k : Fin 4) :
    ((((cs.toList.take n).map Codec.instr)[k.val]?).map Codec.code).getD 0b00#2 =
      if k.val < n then cs[k] else 0b00#2 := by
  by_cases hk : k.val < n
  · simp [hk]
  · simp [hk]

theorem instructionOfPort_eq_some_iff (ch : Byte) (c : Code) :
    instructionOfPort ch = some c ↔ Codec.instructionOf ch = .ok (Codec.instr c) := by
  unfold instructionOfPort
  cases h : Codec.instructionOf ch with
  | error e => simp
  | ok i => simp [Codec.code_eq_iff]

theorem instructionOfPort_eq_none_iff (ch : Byte) :
    instructionOfPort ch = none ↔ Codec.instructionOf ch = .error (.invalidInstructionChar ch) := by
  unfold instructionOfPort
  cases h : Codec.instructionOf ch with
  | error e => simp [Codec.instructionOf_error h]
  | ok i => simp

theorem readOut_of_running {s : State} (hr : s.runState = .running) : readOut s = none := by simp [readOut, hr]

theorem readOut_of_not_running {s : State} (hr : s.runState ≠ .running) :
    readOut s = some ⟨s.mem.toImage, s.dp, s.ipl, s.iph, s.rpl, s.rph, s.runState⟩ := by
  unfold readOut
  split
  · contradiction
  · rfl
  · rfl

end Sys2Proof.Machine

open Sys2Proof Sys2Proof.Machine

/-- Settles O51, port by port, from the fields of a byte and of a group and from the alphabet. -/
theorem codecPortsCarryTheCodes : Obligations.CodecPortsCarryTheCodes := by
  refine ⟨fun b k => (decodeBytePort_getElem b k).trans (Codec.code_slotInstr b _), fun cs n hn => ?_,
    fun cs n hn => if_neg (not_le.mpr hn), fun _ => rfl, instructionOfPort_eq_some_iff, instructionOfPort_eq_none_iff,
    fun ch c => (instructionOfPort_eq_some_iff ch c).trans (Codec.instructionOf_eq_ok_iff ch _)⟩
  have hlen : ((cs.toList.take n).map Codec.instr).length ≤ slots := by simp
  exact ⟨_, if_pos hn, Codec.encodeGroup_of_length_le hlen, fun k =>
    (Codec.extract_orSlots_zero hlen k.isLt).trans (getElem?_take_map_instr cs n k)⟩

/-- Settles O52, from the read-out in each run state and the end position of the invariant. -/
theorem readOutShowsTheFinalState : Obligations.ReadOutShowsTheFinalState := by
  refine ⟨fun s => ?_, fun s r h => ?_, fun s hinv hr => hinv.ip_of_atEnd (hinv.haltedAtEnd hr)⟩
  · by_cases hr : s.runState = .running
    · simp [readOut_of_running hr, hr]
    · simp [readOut_of_not_running hr, hr]
  · by_cases hr : s.runState = .running
    · simp [readOut_of_running hr] at h
    · rw [readOut_of_not_running hr] at h
      obtain rfl := Option.some.inj h
      exact ⟨fun a => Memory.getElem_toImage _ _ _, rfl, rfl, rfl, rfl, rfl, rfl⟩

/-- Settles O50: each row of the table, and the condition that each load error is. -/
theorem conditionCodesFollowTheTable : Obligations.ConditionCodesFollowTheTable :=
  ⟨rfl, rfl, rfl, rfl, fun _ _ => rfl, fun _ => rfl⟩

/-- Settles O53, by `decodeTableWord_eq` for the table's words and by the fields of the two packed bytes. -/
theorem decoderReadsTheTableWords : Obligations.DecoderReadsTheTableWords := by
  unfold Obligations.DecoderReadsTheTableWords
  simp only [decodeTableWord_eq, Codec.slotInstr_eq]
  decide
end
